-- ==== Sys2Proof/Word.lean ====
section
/-! DEFINITION. The block's data: bytes, byte sequences and host addresses (00_scope.md R9, R11).
A byte is unsigned; no value wider than eight bits is stored anywhere (R12). -/

namespace Sys2Proof

/-- A byte, an integer 0 to 255 (R11); bit 0 is the least significant (R12). -/
abbrev Byte := BitVec 8

/-- A finite sequence of bytes, element 0 first (R11). -/
abbrev Bytes := List Byte

/-- A host address: nine bits, 0x000 to 0x1FF (R9, 20_memory.md R50). -/
abbrev HostAddr := BitVec 9

/-- `a xor b` on two sequences of equal length, element by element (R12). -/
def xorBytes (a b : Bytes) : Bytes := List.zipWith (· ^^^ ·) a b

end Sys2Proof
end

