-- ==== Sys2Proof/Config.lean ====
section
/-! DEFINITION. The configuration record `cfg` of 00_scope.md rules R5 to R10, which is fixed when the block
is built and is not state (10_state.md R20). The function layer and the shell take a `Cfg` as an argument. The
machine behind the host's fixed names runs on ONE configuration, `Config.cfg`, whose OPEN parameters are an
opaque constant: nothing in Lean can compute them, so what is proved of that machine holds of every well-formed
configuration (log entries 1 and 2). -/

namespace Sys2Proof

/-- `MODE` (R7): how blocks are chained. -/
inductive Mode where
  | ecb
  | cbc
deriving DecidableEq, Repr, Inhabited

/-- The parameters the spec leaves OPEN (R6, R7, R8). `E` and `D` are total functions of their two arguments;
what they do on arguments of other lengths is never used. -/
structure OpenParams where
  /-- `BLK`, the cipher's block size in bytes (R6). -/
  blk : Nat
  /-- `KLEN`, the key length in bytes (R6). -/
  klen : Nat
  /-- `keyOK`, the cipher's own verdict on a key (R6). -/
  keyOK : Bytes → Bool
  /-- `E`, encrypt one block (R6): key, then block. -/
  E : Bytes → Bytes → Bytes
  /-- `D`, decrypt one block (R6): key, then block. -/
  D : Bytes → Bytes → Bytes
  /-- `MODE` (R7). -/
  mode : Mode
  /-- `IV0`, the chaining value before the first block in CBC mode (R7). -/
  iv0 : Bytes
  /-- `NPAD`, the fixed number of padding bytes (R8). -/
  npad : Nat
  /-- `PADBYTE`, the value of each padding byte (R8). -/
  padByte : Byte

/-- The part of R10 that is a plain check on numbers and lengths. -/
def OpenParams.sized (p : OpenParams) : Bool :=
  decide (1 ≤ p.blk) && decide (p.blk ≤ 64) && decide (1 ≤ p.klen) && decide (p.klen ≤ 64) &&
  decide (p.npad < p.blk) && decide (p.iv0.length = p.blk)

/-- R10: a well-formed configuration. The last two clauses are `cipher_inverse` of R6; the two before them say
that `E` and `D` return a `Bytes(BLK)`. (`0 <= BIAS <= 255` and `0 <= PADBYTE <= 255` hold by type.) -/
structure OpenParams.WF (p : OpenParams) : Prop where
  sized : p.sized = true
  E_length : ∀ k b : Bytes, k.length = p.klen → b.length = p.blk → (p.E k b).length = p.blk
  D_length : ∀ k b : Bytes, k.length = p.klen → b.length = p.blk → (p.D k b).length = p.blk
  D_E : ∀ k b : Bytes, k.length = p.klen → b.length = p.blk → p.keyOK k = true → p.D k (p.E k b) = b
  E_D : ∀ k b : Bytes, k.length = p.klen → b.length = p.blk → p.keyOK k = true → p.E k (p.D k b) = b

/-- The configuration record `cfg`: the OPEN parameters and `BIAS`, which the spec fixes at 0xFC and keeps as a
field (R5; 90_conflicts.md C1). -/
structure Cfg extends OpenParams where
  /-- `BIAS`, the checksum of the empty sequence (R5). -/
  bias : Byte := 0xFC

/-- A block as built: OPEN parameters that are well formed (R10; 93_implementation_defined.md V9 leaves the others
out), of a cipher that accepts at least one key. The last clause is a DESIGN CHOICE (log entry 2; unsafe only for
a cipher under which every crypto command fails): no statement rests on it, only the witnesses that show the
statements about success are not empty.
The values after `:=` only show Lean that such a block exists (they are R6 to R8's defaults, with the identity in
the place of the unknown cipher); they are not the values of `Config.built`. -/
structure Config.Built where
  params : OpenParams :=
    { blk := 16, klen := 16, keyOK := fun _ => true, E := fun _ b => b, D := fun _ b => b, mode := .cbc,
      iv0 := List.replicate 16 0x00, npad := 10, padByte := 0x00 }
  wf : params.WF := by constructor <;> simp [OpenParams.sized]
  accepts : ∃ k : Bytes, k.length = params.klen ∧ params.keyOK k = true := by
    exact ⟨List.replicate 16 0x00, by simp⟩
deriving Inhabited

/-- The OPEN parameters of the block the machine models. It has no body: whatever is proved holds whatever they
are (92_eei_decisions.md, "Parameters left OPEN, in one place"; DESIGN CHOICE of form, safe: log entry 1). -/
opaque Config.built : Config.Built

/-- The `cfg` of the machine behind the host's fixed names: the opaque OPEN parameters, and `BIAS = 0xFC` (R5;
90_conflicts.md C1, log entry 6). -/
def Config.cfg : Cfg := { toOpenParams := Config.built.params, bias := 0xFC }

end Sys2Proof
end

