-- ==== Sys2Proof/Syntax.lean ====
section
/-! DEFINITION. What a host can say to the block: the five commands (30_encoding.md R72), the registers it can
name, the transactions (R82) and reset (42_control.md R181), and the lines of a host script (R80, R81). -/

namespace Sys2Proof

/-- The five commands of the opcode map (R72), one constructor per row of the opcode table. A command is one byte
and has no operand field (R70, R75): its operands are implicit in the block's state. -/
inductive Instr where
  /-- `CS.COMPUTE`, 0x01 (40_checksum.md R110). -/
  | csCompute
  /-- `CS.VALIDATE`, 0x02 (40_checksum.md R111). -/
  | csValidate
  /-- `CR.ENCRYPT`, 0x10 (41_crypto.md R150). -/
  | crEncrypt
  /-- `CR.DECRYPT`, 0x11 (41_crypto.md R151). -/
  | crDecrypt
  /-- `SRST`, 0xFF (42_control.md R180). -/
  | srst
deriving DecidableEq, Repr

/-- The named locations of the host port (R80; 20_memory.md R51). The addresses of the map that no constructor
names are reserved. -/
inductive Reg where
  | cmd
  | status
  | res
  | errc
  | len
  | cfgMode
  | cfgBlk
  | cfgKlen
  | cfgNpad
  | cfgPadByte
  | cfgBias
  | key (i : Nat)
  | iv0 (i : Nat)
  | buf (i : Nat)
deriving DecidableEq, Repr

/-- What the host, the only agent with a choice, picks at each step (60_exceptions.md R216): a transaction of R82,
or the reset input (42_control.md R181). -/
inductive HostAction where
  /-- `wr a, v`. -/
  | write (a : HostAddr) (v : Byte)
  /-- `rd a`. -/
  | read (a : HostAddr)
  /-- The block's reset input. -/
  | reset
deriving DecidableEq, Repr

/-- An address as a script line writes it: a number, or a register name with its offset (R80). -/
inductive Loc where
  | num (n : Nat)
  | reg (r : Reg)
deriving DecidableEq, Repr

/-- A line of a host script: the two primitive lines of R80 and the five pseudo-instructions of R81. -/
inductive Line where
  | wr (l : Loc) (v : Byte)
  | rd (l : Loc)
  | cmd (i : Instr)
  | load (bytes : Bytes)
  | key (bytes : Bytes)
  | dump (n : Nat)
  | expect (l : Loc) (v : Byte)
deriving DecidableEq, Repr

end Sys2Proof
end

