-- ==== Sys2Proof/WellFormed.lean ====
section
/-! DEFINITION. Which terms of the syntax stand for something a host can do. -/

namespace Sys2Proof

/-- A command has no operand field (30_encoding.md R70, R71), so every term of `Instr` is well formed. -/
def Instr.wf : Instr → Bool
  | .csCompute => true
  | .csValidate => true
  | .crEncrypt => true
  | .crDecrypt => true
  | .srst => true

/-- A register name's offset stays inside the register's window of the map (20_memory.md R51). Slots of the key
and initial-value windows past `KLEN` and `BLK` can be named; they are reserved there (R57). -/
def Reg.wf : Reg → Bool
  | .key i => decide (i < 64)
  | .iv0 i => decide (i < 64)
  | .buf i => decide (i < 256)
  | _ => true

/-- A number is an address 0x000 to 0x1FF (30_encoding.md R80). -/
def Loc.wf : Loc → Bool
  | .num n => decide (n < 512)
  | .reg r => r.wf

/-- `load` takes at most 255 bytes (R81); `key` and `dump` stay inside their windows (20_memory.md R51). -/
def Line.wf : Line → Bool
  | .wr l _ => l.wf
  | .rd l => l.wf
  | .cmd i => i.wf
  | .load bytes => decide (bytes.length ≤ 255)
  | .key bytes => decide (bytes.length ≤ 64)
  | .dump n => decide (n ≤ 256)
  | .expect l _ => l.wf

end Sys2Proof
end

