-- ==== Sys2Proof/Decode.lean ====
section
/-! DEFINITION. The decoder of the command byte, total on the 256 byte values (30_encoding.md R71, R72, R74), and
after it the encoder. Both read the one opcode map below. -/

namespace Sys2Proof

/-- A row of the opcode map: a byte `v` is this command when `v AND mask` is `pattern` (R71). -/
structure OpcodeRow where
  pattern : Byte
  mask : Byte
  command : Instr
deriving DecidableEq, Repr

/-- The opcode map (R72). All eight bits are significant: every mask is 0xFF (R71). -/
def opcodeMap : List OpcodeRow :=
  [⟨0x01, 0xFF, .csCompute⟩, ⟨0x02, 0xFF, .csValidate⟩, ⟨0x10, 0xFF, .crEncrypt⟩, ⟨0x11, 0xFF, .crDecrypt⟩,
   ⟨0xFF, 0xFF, .srst⟩]

/-- What a byte written to `CMD` is: "five decode to commands, 251 to illegal" (R74). -/
inductive Decoded where
  | command (i : Instr)
  | illegal (v : Byte)
deriving DecidableEq, Repr

/-- Decode the byte written to `CMD` (R70, R72, R74). -/
def decode (v : Byte) : Decoded :=
  match opcodeMap.find? (fun r => v &&& r.mask == r.pattern) with
  | some r => .command r.command
  | none => .illegal v

/-- The byte that starts a command (R72). -/
def encode (i : Instr) : Byte :=
  match opcodeMap.find? (fun r => r.command == i) with
  | some r => r.pattern
  | none => 0x00

/-- The first byte of an instruction whose bits are `w`, `nbits` of them. -/
def firstByte (nbits w : Nat) : Byte := BitVec.ofNat 8 (w % 2 ^ nbits)

/-- The decoder's reading of an instruction numbered as the opcode table numbers it. A command is one byte long
(R76): a word with a bit above bit 7 is no command. -/
def decodeTableWord (nbits w : Nat) : Option Instr :=
  if w % 2 ^ nbits < 256 then
    match decode (firstByte nbits w) with
    | .command i => some i
    | .illegal _ => none
  else none

/-- A command's name in the opcode map (R72). -/
def Instr.mnemonic : Instr → String
  | .csCompute => "CS.COMPUTE"
  | .csValidate => "CS.VALIDATE"
  | .crEncrypt => "CR.ENCRYPT"
  | .crDecrypt => "CR.DECRYPT"
  | .srst => "SRST"

end Sys2Proof
end

