-- ==== Sys2Proof/Machine/State.lean ====
section
/-! DEFINITION. The block's state (10_state.md R20), the host's script and what its reads have returned, and the
state after reset (R41). Plain data throughout. -/

namespace Sys2Proof.Machine

/-- `BUF` (10_state.md R29), as (index, byte) pairs with indexes strictly rising and no byte equal to 0x00, which
an unlisted index reads as: the reset value of every byte (R41). -/
abbrev Memory := List Host.Cell

/-- The whole state of the block (R20). `STATUS` is stored as its two flags; its third flag `KV` is computed
(R43) and its other bits read as 0 (R23). `KEY` and `KW` have the 64 slots of the host's key window; only the
slots below `KLEN` exist, and the others keep their reset value (DESIGN CHOICE, safe: log entry 3). `CMD` is a trigger and no state. -/
structure Block where
  /-- `STATUS.DONE` (R23). -/
  done : Bool
  /-- `STATUS.ERR` (R23). -/
  err : Bool
  /-- `RES` (R24). -/
  res : Byte
  /-- `ERRC` (R25). -/
  errc : Byte
  /-- `LEN` (R26). -/
  len : Byte
  /-- `KEY` (R27). -/
  key : Vector Byte 64
  /-- `KW` (R28): the host has written this byte of `KEY` since the key store was last cleared. -/
  kw : Vector Bool 64
  /-- `BUF` (R29). -/
  buf : Memory
deriving DecidableEq, Repr

/-- Every state element after reset (R41). -/
def Block.reset : Block where
  done := false
  err := false
  res := 0x00
  errc := 0x00
  len := 0x00
  key := Vector.replicate 64 0x00
  kw := Vector.replicate 64 false
  buf := []

/-- The block and its host. The last two fields are the model's own (DESIGN CHOICE, safe: log entry 4), not the block's: what the host
is still going to do (30_encoding.md R82), and the bytes its reads have returned (70_reset_and_hazards.md R255). -/
structure State where
  block : Block
  /-- The host's actions still to come, the next one first. -/
  script : List HostAction
  /-- The bytes the host's reads have returned, the first one first. -/
  reads : List Byte
deriving DecidableEq, Repr

/-- No fault exists: "Nothing in this spec is treated as fault" (93_implementation_defined.md section 2), every
error is a reported value (60_exceptions.md R200, R209, R211). -/
inductive Fault
deriving DecidableEq, Repr

/-- The machine refuses nothing (60_exceptions.md R211); the one constructor is the host interface's. -/
inductive Refusal where
  /-- Raised by an arm of `exec` whose instruction has no meaning yet: by none. Safe. -/
  | notModelled (mnemonic : String)
deriving DecidableEq, Repr

/-- The machine right after reset: the block as R41 says, and a host that has not yet done anything (R255: a run
starts from the reset state; its script is given from outside, log entry 4). -/
def State.reset : State where
  block := Block.reset
  script := []
  reads := []

/-- What executing a command answers. -/
abbrev Result := Host.Outcome State Fault Refusal

end Sys2Proof.Machine
end

