-- ==== Sys2Proof/Machine/Ops.lean ====
section
/-! DEFINITION. The shared operations over `BUF`, the key store and the outcome registers. A failed command is
reported by one of two operations only (60_exceptions.md R203, R204): the block has no other kind of exception, and
no return from one (R208). -/

namespace Sys2Proof.Machine

/-! ### `BUF` -/

/-- `BUF[i]`; an unlisted index reads as 0x00. -/
def Memory.read : Memory → Nat → Byte
  | [], _ => 0x00
  | (a, v) :: m, i => if a = i then v else Memory.read m i

/-- Put a byte at an index, keeping the canonical form: storing 0x00 removes the entry. -/
def Memory.put : Memory → Nat → Byte → Memory
  | [], i, v => if v = 0x00 then [] else [(i, v)]
  | (a, w) :: m, i, v =>
    if a < i then (a, w) :: Memory.put m i v
    else if a = i then (if v = 0x00 then m else (i, v) :: m)
    else (if v = 0x00 then (a, w) :: m else (i, v) :: (a, w) :: m)

/-- `BUF[i] <- v`. `BUF` has 256 elements (10_state.md R29): no index past 255 exists, and no rule
writes one (DESIGN CHOICE, safe: log entry 8). -/
def Memory.write (m : Memory) (i : Nat) (v : Byte) : Memory := if i < 256 then m.put i v else m

/-- `BUF[i .. i + len(bytes) - 1] <- bytes`, element 0 at the lowest index (20_memory.md R58). -/
def Memory.writeAll : Memory → Nat → Bytes → Memory
  | m, _, [] => m
  | m, i, v :: bytes => Memory.writeAll (m.write i v) (i + 1) bytes

/-- `BUF[i .. i + n - 1]` as a sequence. -/
def Memory.slice (m : Memory) (i n : Nat) : Bytes := (List.range n).map fun j => m.read (i + j)

/-- The canonical form above index `lo`: indexes strictly rising and below 256, no byte that reads as unlisted. -/
def Memory.wfFrom : Nat → Memory → Bool
  | _, [] => true
  | lo, (a, v) :: m => decide (lo ≤ a) && decide (a < 256) && decide (v ≠ 0x00) && Memory.wfFrom (a + 1) m

/-- The canonical form of `BUF`: equal buffers are equal lists. -/
def Memory.wf (m : Memory) : Bool := Memory.wfFrom 0 m

/-! ### The key store -/

/-- A host write to `KEY[i]`: the byte is stored and `KW[i]` set (10_state.md R28). -/
def Block.writeKey (b : Block) (i : Nat) (v : Byte) : Block :=
  { b with key := b.key.setIfInBounds i v, kw := b.kw.setIfInBounds i true }

/-- Clear the key store: `KEY[i] <- 0x00` and `KW[i] <- 0` for every `i` (10_state.md R28, 41_crypto.md R160). -/
def Block.clearKeyStore (b : Block) : Block :=
  { b with key := Vector.replicate 64 0x00, kw := Vector.replicate 64 false }

/-! ### The outcome of a command -/

/-- The causes of `CryptoError` (30_encoding.md R78, 60_exceptions.md R201). -/
inductive CryptoCause where
  | length
  | key
  | capacity
deriving DecidableEq, Repr

/-- `ERRC` after a successful command (R78). -/
def errNone : Byte := 0x00

/-- `ERRC` after an illegal command (R78). -/
def errIllegalCmd : Byte := 0x7F

/-- `ERRC` after a `CryptoError` of this cause (R78). -/
def CryptoCause.code : CryptoCause → Byte
  | .length => 0x01
  | .key => 0x02
  | .capacity => 0x03

/-- Every command but `SRST` writes `ERRC`, `STATUS.ERR` and `STATUS.DONE` (10_state.md R23, R25). -/
def Block.report (b : Block) (err : Bool) (code : Byte) : Block :=
  { b with done := true, err := err, errc := code }

/-- A command succeeds: `ERRC <- 0x00 ; STATUS.ERR <- 0 ; STATUS.DONE <- 1`. -/
def Block.succeed (b : Block) : Block := b.report false errNone

/-- `raise CryptoError(code)` (60_exceptions.md R203): the code is reported, the key store is cleared, and `BUF`,
`LEN` and `RES` keep their values. -/
def Block.raiseCryptoError (b : Block) (cause : CryptoCause) : Block := (b.report true cause.code).clearKeyStore

/-- `fail(0x7F)`, the illegal command (60_exceptions.md R204, 42_control.md R182): only the outcome is written; in
particular the key store is kept. -/
def Block.illegalCommand (b : Block) : Block := b.report true errIllegalCmd

/-! ### The state around the block -/

/-- The state with its block replaced; the host's part of the state stays. -/
def State.withBlock (s : State) (b : Block) : State := { s with block := b }

end Sys2Proof.Machine
end

