-- ==== Sys2Proof/Machine/Operands.lean ====
section
/-! DEFINITION. The two operands of a command, both implicit and read when the command starts (30_encoding.md
R75). -/

namespace Sys2Proof.Machine

/-- The data operand `BUF[0..LEN-1]`, element 0 first; empty when `LEN = 0` (10_state.md R26). -/
def Block.operand (b : Block) : Bytes := b.buf.slice 0 b.len.toNat

/-- The key operand `KEY[0..KLEN-1]`, `KEY[0]` first (10_state.md R27). -/
def Block.keyOperand (cfg : Cfg) (b : Block) : Bytes := b.key.toList.take cfg.klen

/-- Every `KW[i]` with `0 <= i < KLEN` is 1 (10_state.md R43). -/
def Block.keyComplete (cfg : Cfg) (b : Block) : Bool := (b.kw.toList.take cfg.klen).all id

end Sys2Proof.Machine
end

