-- ==== Sys2Proof/Machine/Flags.lean ====
section
/-! DEFINITION. The flags (10_state.md R23, R38, R43) and the Boolean result byte (30_encoding.md R77). -/

namespace Sys2Proof.Machine

/-- A flag as bit `k` of a byte. -/
def flagBit (k : Nat) (f : Bool) : Byte := if f then BitVec.ofNat 8 (2 ^ k) else 0x00

/-- `STATUS` as the host reads it (R23): bit 0 `DONE`, bit 1 `ERR`, bit 2 `KV` computed at the moment of the read
(R43), bits 7:3 zero. -/
def Block.status (cfg : Cfg) (b : Block) : Byte :=
  flagBit 0 b.done ||| flagBit 1 b.err ||| flagBit 2 (b.keyComplete cfg)

/-- A Boolean result in `RES`: 0x01 for true, 0x00 for false (R77). -/
def boolByte (x : Bool) : Byte := if x then 0x01 else 0x00

end Sys2Proof.Machine
end

