-- ==== Sys2Proof/Machine/Checksum.lean ====
section
/-! DEFINITION. The checksum unit: its two functions (40_checksum.md R100 to R102, R109) and the two commands that
apply them (R110, R111). -/

namespace Sys2Proof.Machine

/-- `sum8` (R100): the bytes summed as unsigned integers, reduced modulo 256 once at the end. -/
def sum8 (s : Bytes) : Byte := BitVec.ofNat 8 (s.map BitVec.toNat).sum

/-- `cs_compute(s) = (BIAS - sum8(s)) mod 256` (R101). -/
def csCompute (cfg : Cfg) (s : Bytes) : Byte := cfg.bias - sum8 s

/-- `cs_validate` (R102): false on the empty sequence; otherwise recompute over all bytes but the last and compare
with the last. -/
def csValidate (cfg : Cfg) (f : Bytes) : Bool :=
  match f.getLast? with
  | none => false
  | some c => csCompute cfg f.dropLast == c

/-- `alt`, the other formula that fits the literal frame (R109): constant 0, the first byte left out. No command
computes it. -/
def csAlt (s : Bytes) : Byte := 0x00 - sum8 s.tail

/-- `CS.COMPUTE` on the block (R110). -/
def Block.csCompute (cfg : Cfg) (b : Block) : Block :=
  { b with res := Machine.csCompute cfg b.operand }.succeed

/-- `CS.VALIDATE` on the block (R111): a false result is no error. -/
def Block.csValidate (cfg : Cfg) (b : Block) : Block :=
  { b with res := boolByte (Machine.csValidate cfg b.operand) }.succeed

/-- `CS.COMPUTE` (R110). -/
def execCsCompute (s : State) : Result := .next (s.withBlock (s.block.csCompute Config.cfg))

/-- `CS.VALIDATE` (R111). -/
def execCsValidate (s : State) : Result := .next (s.withBlock (s.block.csValidate Config.cfg))

end Sys2Proof.Machine
end

