-- ==== Sys2Proof/Machine/Control.lean ====
section
/-! DEFINITION. Control: the soft reset (42_control.md R180) and the reset input (R181). The illegal command (R182)
is `Block.illegalCommand` of Ops.lean. -/

namespace Sys2Proof.Machine

/-- Hardware reset (R181; 70_reset_and_hazards.md R240): every state element takes its value of 10_state.md R41. -/
def Block.hardwareReset (_ : Block) : Block := Block.reset

/-- `SRST` on the block (R180), as its pseudocode writes it. -/
def Block.srst (b : Block) : Block :=
  { b.clearKeyStore with done := false, err := false, res := 0x00, errc := 0x00, len := 0x00, buf := [] }

/-- `SRST` (R180). -/
def execSrst (s : State) : Result := .next (s.withBlock s.block.srst)

end Sys2Proof.Machine
end

