-- ==== Sys2Proof/Machine/Crypto.lean ====
section
/-! DEFINITION. The crypto unit: padding, blocks and chaining, the two functions (41_crypto.md R131 to R155) and the
two commands that apply them (R149 to R151, R160). The cipher is `cfg`'s `E`, `D` and `keyOK` (00_scope.md R6). -/

namespace Sys2Proof.Machine

/-! ### Padding -/

/-- `pad(p) = p ++ rep(PADBYTE, NPAD)` (R132). -/
def pad (cfg : Cfg) (p : Bytes) : Bytes := p ++ List.replicate cfg.npad cfg.padByte

/-- `unpad` removes the last `NPAD` bytes and does not look at them (R133, R135). -/
def unpad (cfg : Cfg) (x : Bytes) : Bytes := x.take (x.length - cfg.npad)

/-! ### Blocks and chaining -/

/-- `blk(x, j) = x[j*BLK .. j*BLK + BLK - 1]` (R143). -/
def blockOf (cfg : Cfg) (x : Bytes) (j : Nat) : Bytes := (x.drop (j * cfg.blk)).take cfg.blk

/-- The blocks of `x` in order; none when `x` is empty (R143). -/
def blocks (cfg : Cfg) (x : Bytes) : List Bytes := (List.range (x.length / cfg.blk)).map (blockOf cfg x)

/-- `ecb_enc` (R144): each block on its own. -/
def ecbEnc (cfg : Cfg) (k x : Bytes) : Bytes := ((blocks cfg x).map (cfg.E k)).flatten

/-- `ecb_dec` (R145). -/
def ecbDec (cfg : Cfg) (k y : Bytes) : Bytes := ((blocks cfg y).map (cfg.D k)).flatten

/-- The CBC ciphertext blocks (R146) after a chaining value `c(j-1)`: `c(j) = E(k, blk(x, j) xor c(j-1))`. -/
def cbcEncBlocks (cfg : Cfg) (k : Bytes) : Bytes → List Bytes → List Bytes
  | _, [] => []
  | c, x :: xs => cfg.E k (xorBytes x c) :: cbcEncBlocks cfg k (cfg.E k (xorBytes x c)) xs

/-- The CBC plaintext blocks (R147) after a chaining value: `blk(x, j) = D(k, c(j)) xor c(j-1)`, where the next
chaining value is the INPUT block `c(j)`. -/
def cbcDecBlocks (cfg : Cfg) (k : Bytes) : Bytes → List Bytes → List Bytes
  | _, [] => []
  | c, y :: ys => xorBytes (cfg.D k y) c :: cbcDecBlocks cfg k y ys

/-- `cbc_enc` (R146), with `c(-1) = IV0`. -/
def cbcEnc (cfg : Cfg) (k x : Bytes) : Bytes := (cbcEncBlocks cfg k cfg.iv0 (blocks cfg x)).flatten

/-- `cbc_dec` (R147), with `c(-1) = IV0`. -/
def cbcDec (cfg : Cfg) (k y : Bytes) : Bytes := (cbcDecBlocks cfg k cfg.iv0 (blocks cfg y)).flatten

/-- `chain_enc` (R142). -/
def chainEnc (cfg : Cfg) (k x : Bytes) : Bytes :=
  match cfg.mode with
  | .ecb => ecbEnc cfg k x
  | .cbc => cbcEnc cfg k x

/-- `chain_dec` (R142). -/
def chainDec (cfg : Cfg) (k y : Bytes) : Bytes :=
  match cfg.mode with
  | .ecb => ecbDec cfg k y
  | .cbc => cbcDec cfg k y

/-! ### The two functions -/

/-- The two kinds of failure of the function layer (00_scope.md R14). -/
inductive CrKind where
  | length
  | key
deriving DecidableEq, Repr

/-- `Result` (00_scope.md R14); an `err` carries no bytes (R157). -/
inductive CrResult where
  | ok (bytes : Bytes)
  | err (kind : CrKind)
deriving DecidableEq, Repr

/-- A key is accepted when it has `KLEN` bytes and `keyOK` holds (R131). -/
def accepted (cfg : Cfg) (k : Bytes) : Bool := decide (k.length = cfg.klen) && cfg.keyOK k

/-- R148: a plaintext of `n` bytes is malformed when it does not fill whole blocks once padded. -/
def plainMalformed (cfg : Cfg) (n : Nat) : Bool := decide ((n + cfg.npad) % cfg.blk ≠ 0)

/-- R153: a ciphertext of `n` bytes is malformed when it is not whole blocks, or shorter than the padding. -/
def cipherMalformed (cfg : Cfg) (n : Nat) : Bool := decide (n % cfg.blk ≠ 0) || decide (n < cfg.npad)

/-- `cr_encrypt` (R140): length first, key second (R155). -/
def crEncrypt (cfg : Cfg) (p k : Bytes) : CrResult :=
  if plainMalformed cfg p.length then .err .length
  else if !accepted cfg k then .err .key
  else .ok (chainEnc cfg k (pad cfg p))

/-- `cr_decrypt` (R141). -/
def crDecrypt (cfg : Cfg) (c k : Bytes) : CrResult :=
  if cipherMalformed cfg c.length then .err .length
  else if !accepted cfg k then .err .key
  else .ok (unpad cfg (chainDec cfg k c))

/-! ### The commands -/

/-- R154 in the shell: some key byte is unwritten, or the cipher rejects the key. -/
def Block.keyRejected (cfg : Cfg) (b : Block) : Bool := !b.keyComplete cfg || !cfg.keyOK (b.keyOperand cfg)

/-- The checks of `CR.ENCRYPT` in their order, length, capacity, key; the first that fails is the one reported
(R148, R149, R154, R155; 60_exceptions.md R205). -/
def Block.encryptCause (cfg : Cfg) (b : Block) : Option CryptoCause :=
  if plainMalformed cfg b.len.toNat then some .length
  else if b.len.toNat + cfg.npad > 255 then some .capacity
  else if b.keyRejected cfg then some .key
  else none

/-- The checks of `CR.DECRYPT`: length, key (R153, R154, R155). -/
def Block.decryptCause (cfg : Cfg) (b : Block) : Option CryptoCause :=
  if cipherMalformed cfg b.len.toNat then some .length
  else if b.keyRejected cfg then some .key
  else none

/-- The ciphertext `CR.ENCRYPT` puts in `BUF` (R150). -/
def Block.ciphertext (cfg : Cfg) (b : Block) : Bytes := chainEnc cfg (b.keyOperand cfg) (pad cfg b.operand)

/-- What `CR.DECRYPT` puts in `BUF`: all of it, padding included (R151). -/
def Block.paddedPlaintext (cfg : Cfg) (b : Block) : Bytes := chainDec cfg (b.keyOperand cfg) b.operand

/-- The end of a successful `CR.*` command: the output in place from `BUF[0]`, the new `LEN`, success, and the key
store cleared (R150, R151, R160). -/
def Block.deliver (b : Block) (out : Bytes) (n : Nat) : Block :=
  { b with buf := b.buf.writeAll 0 out, len := BitVec.ofNat 8 n }.succeed.clearKeyStore

/-- `CR.ENCRYPT` on the block (R150). -/
def Block.crEncrypt (cfg : Cfg) (b : Block) : Block :=
  match b.encryptCause cfg with
  | some cause => b.raiseCryptoError cause
  | none => b.deliver (b.ciphertext cfg) (b.len.toNat + cfg.npad)

/-- `CR.DECRYPT` on the block (R151). -/
def Block.crDecrypt (cfg : Cfg) (b : Block) : Block :=
  match b.decryptCause cfg with
  | some cause => b.raiseCryptoError cause
  | none => b.deliver (b.paddedPlaintext cfg) (b.len.toNat - cfg.npad)

/-- `CR.ENCRYPT` (R150). -/
def execCrEncrypt (s : State) : Result := .next (s.withBlock (s.block.crEncrypt Config.cfg))

/-- `CR.DECRYPT` (R151). -/
def execCrDecrypt (s : State) : Result := .next (s.withBlock (s.block.crDecrypt Config.cfg))

end Sys2Proof.Machine
end

