-- ==== Sys2Proof/Machine/Dispatch.lean ====
section
/-! DEFINITION. One arm per command (30_encoding.md R72). -/

namespace Sys2Proof.Machine

/-- The command's effect on the state. -/
def exec (i : Instr) (s : State) : Host.Outcome State Fault Refusal :=
  match i with
  | .csCompute => Sys2Proof.Machine.execCsCompute s
  | .csValidate => Sys2Proof.Machine.execCsValidate s
  | .crEncrypt => Sys2Proof.Machine.execCrEncrypt s
  | .crDecrypt => Sys2Proof.Machine.execCrDecrypt s
  | .srst => Sys2Proof.Machine.execSrst s

end Sys2Proof.Machine
end

