-- ==== Sys2Proof/Machine/Port.lean ====
section
/-! DEFINITION. The host port: the address map (20_memory.md R51) and the effect of each host action (R52, R53;
42_control.md R181). -/

namespace Sys2Proof.Machine

/-! ### The address map -/

/-- The address of a named location (R51). -/
def regAddr : Reg → Nat
  | .cmd => 0x000
  | .status => 0x001
  | .res => 0x002
  | .errc => 0x003
  | .len => 0x004
  | .cfgMode => 0x008
  | .cfgBlk => 0x009
  | .cfgKlen => 0x00A
  | .cfgNpad => 0x00B
  | .cfgPadByte => 0x00C
  | .cfgBias => 0x00D
  | .key i => 0x040 + i
  | .iv0 i => 0x080 + i
  | .buf i => 0x100 + i

/-- The rows of the map below 0x040 (R51). -/
def controlReg : Nat → Option Reg
  | 0x000 => some .cmd
  | 0x001 => some .status
  | 0x002 => some .res
  | 0x003 => some .errc
  | 0x004 => some .len
  | 0x008 => some .cfgMode
  | 0x009 => some .cfgBlk
  | 0x00A => some .cfgKlen
  | 0x00B => some .cfgNpad
  | 0x00C => some .cfgPadByte
  | 0x00D => some .cfgBias
  | _ => none

/-- The row of the map the address `n`, 0x000 to 0x1FF, is in (R51); `none` is a reserved row. -/
def regAtNat (cfg : Cfg) (n : Nat) : Option Reg :=
  if n < 0x040 then controlReg n
  else if n < 0x080 then (if n - 0x040 < cfg.klen then some (.key (n - 0x040)) else none)
  else if n < 0x0C0 then (if n - 0x080 < cfg.blk then some (.iv0 (n - 0x080)) else none)
  else if n < 0x100 then none
  else some (.buf (n - 0x100))

/-- The row of the map a host address is in. -/
def regAt (cfg : Cfg) (a : HostAddr) : Option Reg := regAtNat cfg a.toNat

/-! ### Reads -/

/-- `CFG_MODE` (10_state.md R30): bit 0 is 0 for ECB and 1 for CBC. -/
def modeByte : Mode → Byte
  | .ecb => 0x00
  | .cbc => 0x01

/-- What a named location reads as (R51, R55; 10_state.md R23 to R36). -/
def Block.readReg (cfg : Cfg) (b : Block) : Reg → Byte
  | .cmd => 0x00
  | .status => b.status cfg
  | .res => b.res
  | .errc => b.errc
  | .len => b.len
  | .cfgMode => modeByte cfg.mode
  | .cfgBlk => BitVec.ofNat 8 cfg.blk
  | .cfgKlen => BitVec.ofNat 8 cfg.klen
  | .cfgNpad => BitVec.ofNat 8 cfg.npad
  | .cfgPadByte => cfg.padByte
  | .cfgBias => cfg.bias
  | .key _ => 0x00
  | .iv0 i => cfg.iv0.getD i 0x00
  | .buf i => b.buf.read i

/-- `MemRead(a, 1)` (R52): the "read gives" column; a reserved address reads as 0x00 (R57;
log entry 7). -/
def Block.hostRead (cfg : Cfg) (b : Block) (a : HostAddr) : Byte :=
  match regAt cfg a with
  | some r => b.readReg cfg r
  | none => 0x00

/-! ### Writes -/

/-- What a write to a named location other than `CMD` does (R51, R53): only `LEN`, `KEY[i]` and `BUF[i]` change, and
a write to a read-only location is ignored (R56). -/
def Block.writeReg (b : Block) (v : Byte) : Reg → Block
  | .len => { b with len := v }
  | .key i => b.writeKey i v
  | .buf i => { b with buf := b.buf.write i v }
  | .cmd => b
  | .status => b
  | .res => b
  | .errc => b
  | .cfgMode => b
  | .cfgBlk => b
  | .cfgKlen => b
  | .cfgNpad => b
  | .cfgPadByte => b
  | .cfgBias => b
  | .iv0 _ => b

/-- `MemWrite(a, 1, v)` at an address other than `CMD` (R53); a write to a reserved address is ignored (R57). -/
def Block.hostStore (cfg : Cfg) (b : Block) (a : HostAddr) (v : Byte) : Block :=
  match regAt cfg a with
  | some r => b.writeReg v r
  | none => b

/-- A write to `CMD` (30_encoding.md R70): the byte is decoded and its command executed to completion inside the
write (20_memory.md R60); an illegal byte reports 0x7F (42_control.md R182). -/
def command (v : Byte) (s : State) : Result :=
  match decode v with
  | .command i => exec i s
  | .illegal _ => .next (s.withBlock s.block.illegalCommand)

/-! ### Host actions -/

/-- A host write (R53). -/
def hostWrite (a : HostAddr) (v : Byte) (s : State) : Result :=
  if a = 0x000 then command v s else .next (s.withBlock (s.block.hostStore Config.cfg a v))

/-- A host read (R52): no state of the block changes; the host has the byte. -/
def hostRead (a : HostAddr) (s : State) : Result :=
  .next { s with reads := s.reads ++ [s.block.hostRead Config.cfg a] }

/-- The reset input (42_control.md R181). -/
def hostReset (s : State) : Result := .next (s.withBlock s.block.hardwareReset)

/-- The effect of one action of the host, complete before the next begins (R60, R61). -/
def act : HostAction → State → Result
  | .write a v => hostWrite a v
  | .read a => hostRead a
  | .reset => hostReset

end Sys2Proof.Machine
end

