-- ==== Sys2Proof/Machine/Step.lean ====
section
/-! DEFINITION. One step of the machine: the host's next action and the block's whole reaction to it
(60_exceptions.md R216). -/

namespace Sys2Proof.Machine

/-- Take the next action off the host's script and perform it. When the script is at its end the host does
nothing, and neither does the block, which acts only inside a host's write (20_memory.md R60): the state stays
(DEDUCED, safe: log entry 5). -/
def step (s : State) : Host.Outcome State Fault Refusal :=
  match s.script with
  | [] => .next s
  | t :: rest => act t { s with script := rest }

/-- `s` with the instruction whose bits are `w` as the host's next write to `CMD`: this is where the machine gets
its next instruction from (30_encoding.md R70; log entry 4). -/
def State.withFetchWord (s : State) (nbits w : Nat) : State :=
  { s with script := .write 0x000 (firstByte nbits w) :: s.script }

end Sys2Proof.Machine
end

