-- ==== Sys2Proof/Machine/Frame.lean ====
section
/-! DEFINITION. The frame: the operand format of the checksum unit (30_encoding.md R85 to R87). No command looks at a
field of it (40_checksum.md R102, 41_crypto.md R130). -/

namespace Sys2Proof.Machine

/-- The fields of a frame in order of offset (R85). -/
structure Frame where
  /-- Offset 0. -/
  magic : Byte
  /-- Offset 1. -/
  transferMode : Byte
  /-- Offsets 2 to 4. -/
  staticPrefix : Vector Byte 3
  /-- Offset 5. -/
  groupCode : Byte
  /-- Offsets 6 to N-1. -/
  payload : Bytes
  /-- Offset N. -/
  checksum : Byte
deriving DecidableEq, Repr

/-- All bytes before the checksum byte, offsets 0 to N-1, `magic` included (R86). -/
def Frame.covered (f : Frame) : Bytes :=
  [f.magic, f.transferMode] ++ f.staticPrefix.toList ++ [f.groupCode] ++ f.payload

/-- The frame as a byte sequence of N + 1 bytes (R85). -/
def Frame.toBytes (f : Frame) : Bytes := f.covered ++ [f.checksum]

/-- The fields of a byte sequence; a sequence of fewer than 7 bytes is no frame (R85). -/
def frameOfBytes : Bytes → Option Frame
  | m :: t :: p0 :: p1 :: p2 :: g :: rest =>
    match rest.getLast? with
    | some c =>
      some { magic := m, transferMode := t, staticPrefix := #v[p0, p1, p2], groupCode := g,
             payload := rest.dropLast, checksum := c }
    | none => none
  | _ => none

/-- The payload layouts a group code selects (R85). -/
inductive Group where
  | general
  | sensor
  | error
  | timer
  | energy
  | autoMode
deriving DecidableEq, Repr

/-- The group codes of R85. -/
def groupOfCode (v : Byte) : Option Group :=
  if v = 0x02 then some .general
  else if v = 0x03 then some .sensor
  else if v = 0x04 then some .error
  else if v = 0x05 then some .timer
  else if v = 0x06 then some .energy
  else if v = 0x09 then some .autoMode
  else none

end Sys2Proof.Machine
end

