-- ==== Sys2Proof/Machine/Transact.lean ====
section
/-! DEFINITION. The step relation in the form 60_exceptions.md R216 gives it, a function of `cfg`, the block's state
and ONE host action, and a run as a fold of it over a trace (R216; 70_reset_and_hazards.md R255). It holds for every
`cfg`; the machine's own `step` performs the same action by way of `exec`, on `Config.cfg`. -/

namespace Sys2Proof.Machine

/-- The effect of one command on the block (30_encoding.md R72). -/
def Block.execute (cfg : Cfg) (b : Block) : Instr → Block
  | .csCompute => b.csCompute cfg
  | .csValidate => b.csValidate cfg
  | .crEncrypt => b.crEncrypt cfg
  | .crDecrypt => b.crDecrypt cfg
  | .srst => b.srst

/-- The effect of a write to `CMD` on the block (R70, R74). -/
def Block.trigger (cfg : Cfg) (b : Block) (v : Byte) : Block :=
  match decode v with
  | .command i => b.execute cfg i
  | .illegal _ => b.illegalCommand

/-- `step : cfg -> State -> Transaction -> State * Option byte` (R216), with reset as a third action. -/
def Block.transact (cfg : Cfg) (b : Block) : HostAction → Block × Option Byte
  | .write a v => (if a = 0x000 then b.trigger cfg v else b.hostStore cfg a v, none)
  | .read a => (b, some (b.hostRead cfg a))
  | .reset => (b.hardwareReset, none)

/-- A run: the state after a trace, and the bytes its reads returned, the first one first (R255). -/
def Block.run (cfg : Cfg) : Block → List HostAction → Block × List Byte
  | b, [] => (b, [])
  | b, t :: rest =>
    let r := b.transact cfg t
    let r' := Block.run cfg r.1 rest
    (r'.1, r.2.toList ++ r'.2)

end Sys2Proof.Machine
end

