-- ==== Sys2Proof/Machine/Script.lean ====
section
/-! DEFINITION. Host scripts (30_encoding.md R80 to R82): the text of a line, the expansion of the
pseudo-instructions into transactions, the trace of a transaction, and what `expect` demands. Texts are lists of
characters. What the rules leave open of a line's text is a DESIGN CHOICE (safe: log entry 9). -/

namespace Sys2Proof.Machine

/-! ### Expansion (R80, R81) -/

/-- The address a line names (R80). -/
def locAddr : Loc → HostAddr
  | .num n => BitVec.ofNat 9 n
  | .reg r => BitVec.ofNat 9 (regAddr r)

/-- `wr R+i, b0 ; wr R+(i+1), b1 ; ...` for the window whose first address is `base`. -/
def writeRun (base : Nat) : Nat → Bytes → List HostAction
  | _, [] => []
  | i, v :: bytes => .write (BitVec.ofNat 9 (base + i)) v :: writeRun base (i + 1) bytes

/-- The transactions of one line (R80, R81). -/
def expandLine : Line → List HostAction
  | .wr l v => [.write (locAddr l) v]
  | .rd l => [.read (locAddr l)]
  | .cmd i => [.write 0x000 (encode i)]
  | .load bytes => writeRun 0x100 0 bytes ++ [.write 0x004 (BitVec.ofNat 8 bytes.length)]
  | .key bytes => writeRun 0x040 0 bytes
  | .dump n => (List.range n).map fun i => .read (BitVec.ofNat 9 (0x100 + i))
  | .expect l _ => [.read (locAddr l)]

/-- The trace of a script (R82). -/
def expandScript (lines : List Line) : List HostAction := (lines.map expandLine).flatten

/-- What each read of a line must return for the test to pass: nothing, but for `expect` (R81). -/
def lineDemands : Line → List (Option Byte)
  | .rd _ => [none]
  | .dump n => List.replicate n none
  | .expect _ v => [some v]
  | .wr _ _ => []
  | .cmd _ => []
  | .load _ => []
  | .key _ => []

/-- The test passes: every `expect` read the byte it names (R81). -/
def demandsMet : List (Option Byte) → List Byte → Bool
  | [], [] => true
  | none :: ds, _ :: vs => demandsMet ds vs
  | some d :: ds, v :: vs => d == v && demandsMet ds vs
  | [], _ :: _ => false
  | _ :: _, [] => false

/-- A script run as a test from a state of the block (R81). -/
def scriptPasses (cfg : Cfg) (b : Block) (lines : List Line) : Bool :=
  demandsMet ((lines.map lineDemands).flatten) (b.run cfg (expandScript lines)).2

/-! ### The trace as text (R82) -/

/-- A hexadecimal digit, upper case as the spec's traces write it. -/
def hexChar (n : Nat) : Char := ['0', '1', '2', '3', '4', '5', '6', '7', '8', '9', 'A', 'B', 'C', 'D', 'E', 'F'].getD (n % 16) '0'

/-- `W aaa dd` or `R aaa`; reset is no transaction and has no text. -/
def traceText : HostAction → List Char
  | .write a v =>
    ['W', ' ', hexChar (a.toNat / 256), hexChar (a.toNat / 16), hexChar a.toNat, ' ', hexChar (v.toNat / 16),
     hexChar v.toNat]
  | .read a => ['R', ' ', hexChar (a.toNat / 256), hexChar (a.toNat / 16), hexChar a.toNat]
  | .reset => []

/-! ### The text of a line (R80, R81) -/

/-- The value of a hexadecimal digit, of either case. -/
def hexValue (c : Char) : Option Nat :=
  let n := c.toNat
  if 48 ≤ n ∧ n ≤ 57 then some (n - 48)
  else if 65 ≤ n ∧ n ≤ 70 then some (n - 55)
  else if 97 ≤ n ∧ n ≤ 102 then some (n - 87)
  else none

/-- A digit string in a base of at most 16, after the value read so far. -/
def digitsValue (base : Nat) : Nat → List Char → Option Nat
  | acc, [] => some acc
  | acc, c :: cs =>
    match hexValue c with
    | some d => if d < base then digitsValue base (acc * base + d) cs else none
    | none => none

/-- "Numbers are hexadecimal with `0x`, or decimal" (R80). -/
def parseNumber : List Char → Option Nat
  | [] => none
  | ['0', 'x'] => none
  | '0' :: 'x' :: cs => digitsValue 16 0 cs
  | cs => digitsValue 10 0 cs

/-- A number below 256. -/
def parseByte (cs : List Char) : Option Byte :=
  match parseNumber cs with
  | some n => if n < 256 then some (BitVec.ofNat 8 n) else none
  | none => none

def isBlank (c : Char) : Bool := c == ' ' || c == '\t' || c == '\r'

/-- The text without the blanks around it. -/
def trimBlanks (cs : List Char) : List Char := ((cs.dropWhile isBlank).reverse.dropWhile isBlank).reverse

/-- The pieces of a text between the characters `sep`. -/
def splitAtChar (sep : Char) : List Char → List (List Char)
  | [] => [[]]
  | c :: cs =>
    match splitAtChar sep cs with
    | [] => [[c]]
    | w :: ws => if c = sep then [] :: w :: ws else (c :: w) :: ws

/-- A hex string: two digits a byte, blanks between them ignored (00_scope.md R11). -/
def parseHexString : List Char → Option Bytes
  | [] => some []
  | [_] => none
  | a :: b :: cs =>
    match hexValue a, hexValue b, parseHexString cs with
    | some x, some y, some bytes => some (BitVec.ofNat 8 (16 * x + y) :: bytes)
    | _, _, _ => none

/-- The register names of R80; the three windows take an offset, and the name alone is offset 0. -/
def regNames : List (List Char × Reg) :=
  [(['C', 'M', 'D'], .cmd), (['S', 'T', 'A', 'T', 'U', 'S'], .status), (['R', 'E', 'S'], .res),
   (['E', 'R', 'R', 'C'], .errc), (['L', 'E', 'N'], .len), (['C', 'F', 'G', '_', 'M', 'O', 'D', 'E'], .cfgMode),
   (['C', 'F', 'G', '_', 'B', 'L', 'K'], .cfgBlk), (['C', 'F', 'G', '_', 'K', 'L', 'E', 'N'], .cfgKlen),
   (['C', 'F', 'G', '_', 'N', 'P', 'A', 'D'], .cfgNpad),
   (['C', 'F', 'G', '_', 'P', 'A', 'D', 'B', 'Y', 'T', 'E'], .cfgPadByte),
   (['C', 'F', 'G', '_', 'B', 'I', 'A', 'S'], .cfgBias), (['K', 'E', 'Y'], .key 0), (['I', 'V', '0'], .iv0 0),
   (['B', 'U', 'F'], .buf 0)]

/-- A register name without its offset. -/
def parseRegName (cs : List Char) : Option Reg := (regNames.find? fun r => r.1 == cs).map Prod.snd

/-- A window's register at an offset. -/
def regOffset (i : Nat) : Reg → Option Reg
  | .key _ => some (.key i)
  | .iv0 _ => some (.iv0 i)
  | .buf _ => some (.buf i)
  | _ => none

/-- An address: "a number 0x000 to 0x1FF or a register name with an optional offset" (R80). -/
def parseLoc (cs : List Char) : Option Loc :=
  match parseNumber cs with
  | some n => some (.num n)
  | none =>
    match splitAtChar '+' cs with
    | [name] => (parseRegName name).map Loc.reg
    | [name, offset] =>
      match parseRegName name, parseNumber offset with
      | some r, some i => (regOffset i r).map Loc.reg
      | _, _ => none
    | _ => none

/-- A mnemonic of the opcode map (R72). -/
def parseMnemonic (cs : List Char) : Option Instr :=
  [Instr.csCompute, .csValidate, .crEncrypt, .crDecrypt, .srst].find? fun i => i.mnemonic.toList == cs

/-- The first word of a line and its arguments, which commas separate. -/
def splitLine (cs : List Char) : List Char × List (List Char) :=
  let text := trimBlanks (cs.takeWhile fun c => c != ';')
  let rest := trimBlanks (text.dropWhile fun c => !isBlank c)
  (text.takeWhile fun c => !isBlank c, (splitAtChar ',' rest).map trimBlanks)

/-- The kinds of line, by first word (R80, R81). -/
def parseWords (word : List Char) (args : List (List Char)) : Option Line :=
  match word, args with
  | ['w', 'r'], [l, v] => (parseLoc l).bind fun l => (parseByte v).map fun v => .wr l v
  | ['r', 'd'], [l] => (parseLoc l).map Line.rd
  | ['c', 'm', 'd'], [m] => (parseMnemonic m).map Line.cmd
  | ['l', 'o', 'a', 'd'], [h] => (parseHexString (h.filter fun c => !isBlank c)).map Line.load
  | ['k', 'e', 'y'], [h] => (parseHexString (h.filter fun c => !isBlank c)).map Line.key
  | ['d', 'u', 'm', 'p'], [n] => (parseNumber n).map Line.dump
  | ['e', 'x', 'p', 'e', 'c', 't'], [l, v] => (parseLoc l).bind fun l => (parseByte v).map fun v => .expect l v
  | _, _ => none

/-- One line of a script: nothing for a blank or comment line, `none` for a text that is no line. -/
def parseLine (cs : List Char) : Option (List Line) :=
  match splitLine cs with
  | ([], _) => some []
  | (word, args) =>
    match parseWords word args with
    | some line => if line.wf then some [line] else none
    | none => none

/-- A script: one transaction or pseudo-instruction a line, top to bottom (R80). -/
def parseScript (cs : List Char) : Option (List Line) :=
  ((splitAtChar '\n' cs).mapM parseLine).map List.flatten

end Sys2Proof.Machine
end

