-- ==== Sys2Proof/Safety.lean ====
section
/-! DEFINITION. The terms the statements use: the invariant of the block, the conditions under which a `CR.*` command
succeeds, and which states agree on what. -/

namespace Sys2Proof.Machine

/-- `ERRC` holds a code of 30_encoding.md R78; "Every other value of `ERRC` never occurs". -/
def legalErrc (v : Byte) : Prop :=
  v = errNone ∨ v = CryptoCause.length.code ∨ v = CryptoCause.key.code ∨ v = CryptoCause.capacity.code ∨
  v = errIllegalCmd

/-- What holds of the block at every moment of every run. -/
structure Block.Inv (cfg : Cfg) (b : Block) : Prop where
  /-- `BUF` is in its canonical form. -/
  bufCanonical : b.buf.wf = true
  /-- R78: only the listed codes. -/
  errcLegal : legalErrc b.errc
  /-- R78: "`STATUS.ERR = 1` exactly when `ERRC` is not 0x00". -/
  errIffErrc : b.err = true ↔ b.errc ≠ errNone
  /-- 10_state.md R23: before any command since reset has completed, no outcome and no result. -/
  notDoneClear : b.done = false → b.err = false ∧ b.res = 0x00
  /-- 10_state.md R28: a key byte the host has not written since the last clearing is 0x00. -/
  unwrittenKeyZero : ∀ i (h : i < 64), b.kw[i] = false → b.key[i] = 0x00
  /-- 10_state.md R27: the slots at `KLEN` and above do not exist and keep their reset value. -/
  keyWindowEmpty : ∀ i (h : i < 64), cfg.klen ≤ i → b.kw[i] = false

/-- The invariant of the machine. -/
def Inv (s : State) : Prop := s.block.Inv Config.cfg

/-- The conditions under which `CR.ENCRYPT` succeeds (41_crypto.md R150; 70_reset_and_hazards.md R245). -/
structure Block.EncryptReady (cfg : Cfg) (b : Block) : Prop where
  wholeBlocks : (b.len.toNat + cfg.npad) % cfg.blk = 0
  fits : b.len.toNat + cfg.npad ≤ 255
  keyWritten : ∀ i (h : i < 64), i < cfg.klen → b.kw[i] = true
  keyAccepted : cfg.keyOK (b.keyOperand cfg) = true

/-- The conditions under which `CR.DECRYPT` succeeds (41_crypto.md R151; 70_reset_and_hazards.md R245). -/
structure Block.DecryptReady (cfg : Cfg) (b : Block) : Prop where
  wholeBlocks : b.len.toNat % cfg.blk = 0
  holdsPadding : cfg.npad ≤ b.len.toNat
  keyWritten : ∀ i (h : i < 64), i < cfg.klen → b.kw[i] = true
  keyAccepted : cfg.keyOK (b.keyOperand cfg) = true

/-- Two blocks that differ at most in the bytes of `KEY` (20_memory.md R55: what must not reach the host). -/
structure Block.SameButKey (b c : Block) : Prop where
  done : b.done = c.done
  err : b.err = c.err
  res : b.res = c.res
  errc : b.errc = c.errc
  len : b.len = c.len
  kw : b.kw = c.kw
  buf : b.buf = c.buf

/-- Two blocks that agree on everything a command may depend on: `BUF`, `LEN`, `KEY`, `KW` (10_state.md R38). -/
structure Block.SameOperands (b c : Block) : Prop where
  len : b.len = c.len
  key : b.key = c.key
  kw : b.kw = c.kw
  buf : b.buf = c.buf

/-- A byte written to `CMD` that is one of the two `CR.*` commands (30_encoding.md R72). -/
def isCryptoCommand (v : Byte) : Prop := decode v = .command .crEncrypt ∨ decode v = .command .crDecrypt

end Sys2Proof.Machine
end

