-- ==== Sys2Proof/Certificates/Slice0/Obligations.lean ====
section
/-! DEFINITION. The statements for the provers. `Config.cfg` is the opaque configuration of the machine behind the
fixed names, of which only well-formedness (00_scope.md R10) and `BIAS = 0xFC` are known; statements about the
function layer hold for every configuration, or for every well-formed one, as they say. -/

open Sys2Proof Sys2Proof.Machine

/-! ### Encoding -/

/-- Encoding and decoding agree, and a byte is a command or illegal and nothing else (30_encoding.md R71, R74). -/
def Obligations.DecodeOfEncodeIsCommand : Prop :=
  (∀ i : Instr, decode (encode i) = .command i ∧ decodeTableWord 8 (encode i).toNat = some i) ∧
  (∀ (v : Byte) (i : Instr), decode v = .command i → v = encode i) ∧
  (∀ v : Byte, (∃ i, decode v = .command i) ∨ decode v = .illegal v)

/-- The opcode map, its words written out (30_encoding.md R72), and the 251 others (R74). -/
def Obligations.OpcodeMapWordsDecode : Prop :=
  decode 0x01 = .command .csCompute ∧ decode 0x02 = .command .csValidate ∧ decode 0x10 = .command .crEncrypt ∧
  decode 0x11 = .command .crDecrypt ∧ decode 0xFF = .command .srst ∧
  ∀ v : Byte, v ≠ 0x01 → v ≠ 0x02 → v ≠ 0x10 → v ≠ 0x11 → v ≠ 0xFF → decode v = .illegal v

/-! ### One step -/

/-- A host write to `CMD` runs the decoded command to completion inside the step, and `CMD` keeps nothing
(30_encoding.md R70). The machine's host takes its actions off the front of its script (log entry 4). -/
def Obligations.StepRunsDecodedCommand : Prop :=
  (∀ (s : State) (v : Byte) (rest : List HostAction) (i : Instr), s.script = .write 0x000 v :: rest →
    decode v = .command i → i.wf = true → step s = exec i { s with script := rest }) ∧
  (∀ s : State, s.block.hostRead Config.cfg 0x000 = 0x00)

/-- An illegal command reports 0x7F and changes nothing else, the key store included (42_control.md R182). -/
def Obligations.IllegalCommandOnlyReports : Prop :=
  ∀ (s : State) (v : Byte) (rest : List HostAction), s.script = .write 0x000 v :: rest →
    v ≠ 0x01 → v ≠ 0x02 → v ≠ 0x10 → v ≠ 0x11 → v ≠ 0xFF →
    ∃ t, step s = .next t ∧ t.script = rest ∧ t.reads = s.reads ∧
      t.block = { s.block with done := true, err := true, errc := 0x7F } ∧
      t.block.status Config.cfg = if s.block.keyComplete Config.cfg then 0x07 else 0x03

/-- A host read returns the byte of the map's "read gives" column and changes no state of the block
(20_memory.md R52 with the read column of R51; R55, R57). The list `reads` that takes the byte is the model's (log
entry 4). -/
def Obligations.HostReadReturnsMappedByte : Prop :=
  ∀ (s : State) (a : HostAddr) (rest : List HostAction), s.script = .read a :: rest →
    ∃ v : Byte, step s = .next { s with script := rest, reads := s.reads ++ [v] } ∧
      (a.toNat = 0x000 → v = 0x00) ∧
      (a.toNat = 0x001 → v = s.block.status Config.cfg) ∧
      (a.toNat = 0x002 → v = s.block.res) ∧
      (a.toNat = 0x003 → v = s.block.errc) ∧
      (a.toNat = 0x004 → v = s.block.len) ∧
      (0x005 ≤ a.toNat ∧ a.toNat ≤ 0x007 → v = 0x00) ∧
      (a.toNat = 0x008 → v = match Config.cfg.mode with | .ecb => 0x00 | .cbc => 0x01) ∧
      (a.toNat = 0x009 → v.toNat = Config.cfg.blk) ∧
      (a.toNat = 0x00A → v.toNat = Config.cfg.klen) ∧
      (a.toNat = 0x00B → v.toNat = Config.cfg.npad) ∧
      (a.toNat = 0x00C → v = Config.cfg.padByte) ∧
      (a.toNat = 0x00D → v = 0xFC) ∧
      (0x00E ≤ a.toNat ∧ a.toNat ≤ 0x03F → v = 0x00) ∧
      (0x040 ≤ a.toNat ∧ a.toNat ≤ 0x07F → v = 0x00) ∧
      (∀ i, i < Config.cfg.blk → a.toNat = 0x080 + i → Config.cfg.iv0[i]? = some v) ∧
      (∀ i, Config.cfg.blk ≤ i → i ≤ 63 → a.toNat = 0x080 + i → v = 0x00) ∧
      (0x0C0 ≤ a.toNat ∧ a.toNat ≤ 0x0FF → v = 0x00) ∧
      (∀ i, i ≤ 255 → a.toNat = 0x100 + i → v = s.block.buf.read i)

/-- A host write at an address other than `CMD` changes `LEN`, one byte of `KEY` with its `KW`, or one byte of
`BUF`, and at every other address nothing (20_memory.md R53 with the write column of R51; R56, R57; 10_state.md
R28). -/
def Obligations.HostWriteChangesMappedLocation : Prop :=
  ∀ (s : State) (a : HostAddr) (v : Byte) (rest : List HostAction), s.block.buf.wf = true →
    s.script = .write a v :: rest → a.toNat ≠ 0x000 →
    ∃ b : Block, step s = .next { s with script := rest, block := b } ∧
      (a.toNat = 0x004 → b = { s.block with len := v }) ∧
      (∀ i, (h : i < 64) → i < Config.cfg.klen → a.toNat = 0x040 + i →
        b = { s.block with key := s.block.key.set i v, kw := s.block.kw.set i true }) ∧
      (∀ i, i ≤ 255 → a.toNat = 0x100 + i →
        b = { s.block with buf := b.buf } ∧ b.buf.read i = v ∧ ∀ j, j ≠ i → b.buf.read j = s.block.buf.read j) ∧
      (a.toNat ≠ 0x004 → ¬ (0x040 ≤ a.toNat ∧ a.toNat < 0x040 + Config.cfg.klen) → ¬ 0x100 ≤ a.toNat → b = s.block)

/-- Writing the same value twice to `LEN`, `KEY[i]` or `BUF[i]` is writing it once (20_memory.md R64): two equal
writes at an address other than `CMD` leave the block as one does. -/
def Obligations.RepeatedHostWriteIsIdempotent : Prop :=
  ∀ (cfg : Cfg) (b : Block) (a : HostAddr) (v : Byte), b.buf.wf = true → a ≠ 0x000 →
    ((b.transact cfg (.write a v)).1.transact cfg (.write a v)).1 = (b.transact cfg (.write a v)).1

/-- Every command byte, every command, and every step has a next state: nothing faults, nothing is refused
(60_exceptions.md R209). -/
def Obligations.EveryStepHasNextState : Prop :=
  (∀ s : State, ∃ t, step s = .next t) ∧ (∀ (v : Byte) (s : State), ∃ t, command v s = .next t) ∧
  (∀ (i : Instr) (s : State), ∃ t, exec i s = .next t)

/-- The model's choice (log entry 5): when the host's script is at its end, a step changes nothing. -/
def Obligations.IdleHostLeavesState : Prop := ∀ s : State, s.script = [] → step s = .next s

/-! ### Reset -/

/-- `SRST`, hardware reset and the reset state: every state element has the value of the table
(10_state.md R41; 42_control.md R180, R181; 70_reset_and_hazards.md R240). -/
def Obligations.ResetClearsEverything : Prop :=
  (∀ s : State, ∃ t, exec .srst s = .next t ∧ t = { s with block := State.reset.block }) ∧
  (∀ (s : State) (rest : List HostAction), s.script = .reset :: rest →
    step s = .next { s with script := rest, block := State.reset.block }) ∧
  State.reset.block.done = false ∧ State.reset.block.err = false ∧ State.reset.block.status Config.cfg = 0x00 ∧
  State.reset.block.res = 0x00 ∧ State.reset.block.errc = 0x00 ∧ State.reset.block.len = 0x00 ∧
  (∀ i, (h : i < 64) → State.reset.block.key[i] = 0x00 ∧ State.reset.block.kw[i] = false) ∧
  (∀ i, State.reset.block.buf.read i = 0x00)

/-- What each command does in the reset state (70_reset_and_hazards.md R242). -/
def Obligations.CommandsInResetState : Prop :=
  (∃ t, exec .csCompute State.reset = .next t ∧ t.block.res = 0xFC) ∧
  (∃ t, exec .csValidate State.reset = .next t ∧ t.block.res = 0x00) ∧
  ∀ i, i = Instr.crEncrypt ∨ i = Instr.crDecrypt →
    ∃ t, exec i State.reset = .next t ∧ (0 < Config.cfg.npad → t.block.errc = 0x01) ∧
      (Config.cfg.npad = 0 → t.block.errc = 0x02)

/-! ### The flags -/

/-- `STATUS` bit by bit (10_state.md R23) and `KV` (R43), in every state; after reset and after every `CR.*` command
`KV = 0` (R43). -/
def Obligations.StatusBitsAndKeyValid : Prop :=
  (∀ b : Block, (b.status Config.cfg).getLsbD 0 = b.done ∧ (b.status Config.cfg).getLsbD 1 = b.err ∧
    ((b.status Config.cfg).getLsbD 2 = true ↔ ∀ i, (h : i < 64) → i < Config.cfg.klen → b.kw[i] = true) ∧
    ∀ k, 3 ≤ k → (b.status Config.cfg).getLsbD k = false) ∧
  (State.reset.block.status Config.cfg).getLsbD 2 = false ∧
  ∀ (i : Instr) (s t : State), (i = .crEncrypt ∨ i = .crDecrypt) → exec i s = .next t →
    (t.block.status Config.cfg).getLsbD 2 = false

/-! ### The checksum functions -/

/-- `sum8`: the sum modulo 256, equal to an 8-bit accumulator started at 0, additive over concatenation
(40_checksum.md R100). -/
def Obligations.ByteSumIsWrappingAccumulator : Prop :=
  sum8 [] = 0x00 ∧ (∀ s : Bytes, (sum8 s).toNat = (s.map BitVec.toNat).sum % 256) ∧
  (∀ s t : Bytes, (sum8 (s ++ t)).toNat = ((sum8 s).toNat + (sum8 t).toNat) % 256) ∧
  (∀ s : Bytes, sum8 s = s.foldl (fun acc v => acc + v) 0x00)

/-- Whole-frame form (40_checksum.md R104): a non-empty sequence validates exactly when its bytes, checksum included,
add up to `BIAS`; the empty one never does. -/
def Obligations.ValidatesIffWholeSumIsBias : Prop :=
  ∀ cfg : Cfg, csValidate cfg [] = false ∧
    ∀ f : Bytes, f ≠ [] → (csValidate cfg f = true ↔ sum8 f = cfg.bias)

/-- The checksum invariant and uniqueness (40_checksum.md R105, R112). -/
def Obligations.ExactlyOneTrailingByteValidates : Prop :=
  ∀ (cfg : Cfg) (s : Bytes), csValidate cfg (s ++ [csCompute cfg s]) = true ∧
    ∀ c : Byte, csValidate cfg (s ++ [c]) = true → c = csCompute cfg s

/-- Every change of exactly one byte of a valid sequence, the checksum byte included, is detected
(40_checksum.md R106). -/
def Obligations.SingleByteChangeIsDetected : Prop :=
  ∀ (cfg : Cfg) (f : Bytes) (i : Nat) (v : Byte), csValidate cfg f = true → (h : i < f.length) → v ≠ f[i] →
    csValidate cfg (f.set i v) = false

/-- What the checksum does not detect (40_checksum.md R107): reordering, changes that cancel modulo 256, and zero
bytes before the checksum position. -/
def Obligations.ReorderingIsNotDetected : Prop :=
  ∀ (cfg : Cfg) (s t : Bytes) (c : Byte),
    (s.Perm t → csCompute cfg s = csCompute cfg t ∧ csValidate cfg (s ++ [c]) = csValidate cfg (t ++ [c])) ∧
    ((s.map BitVec.toNat).sum % 256 = (t.map BitVec.toNat).sum % 256 →
      csCompute cfg s = csCompute cfg t ∧ csValidate cfg (s ++ [c]) = csValidate cfg (t ++ [c])) ∧
    (∀ n, csCompute cfg (s ++ List.replicate n 0x00) = csCompute cfg s)

/-- The checksum of an extension, and the byte-serial form that starts at `BIAS` and subtracts each byte
(40_checksum.md R108). -/
def Obligations.ChecksumOfExtensionSubtracts : Prop :=
  ∀ (cfg : Cfg) (s t : Bytes), csCompute cfg (s ++ t) = csCompute cfg s - sum8 t ∧
    (∀ b : Byte, csCompute cfg (s ++ [b]) = csCompute cfg s - b) ∧
    csCompute cfg s = s.foldl (fun acc v => acc - v) cfg.bias ∧
    csCompute cfg s = cfg.bias - s.foldl (fun acc v => acc + v) 0x00

/-- The alternative formula agrees at `BIAS = 0xFC` on every sequence that starts with 0xFC, and differs by
`0xFC - m` on one that starts with `m` (40_checksum.md R109). -/
def Obligations.AlternativeChecksumAgreesOnMagic : Prop :=
  ∀ (cfg : Cfg), cfg.bias = 0xFC → (∀ r : Bytes, csAlt (0xFC :: r) = csCompute cfg (0xFC :: r)) ∧
    ∀ (m : Byte) (r : Bytes), csCompute cfg (m :: r) - csAlt (m :: r) = 0xFC - m

/-! ### The checksum commands -/

/-- `CS.COMPUTE` (40_checksum.md R110): it completes in every state, `RES` is the checksum of `BUF[0..LEN-1]`, and
nothing but `RES`, `ERRC`, `ERR` and `DONE` is written; `LEN = 0` gives 0xFC. -/
def Obligations.ComputeCommandWritesChecksum : Prop :=
  ∀ s : State, ∃ t, exec .csCompute s = .next t ∧
    t = { s with block := { s.block with
            res := csCompute Config.cfg ((List.range s.block.len.toNat).map fun i => s.block.buf.read i),
            errc := 0x00, err := false, done := true } } ∧
    (s.block.len = 0x00 → t.block.res = 0xFC) ∧
    (∀ u, exec .csCompute t = .next u → u = t)

/-- `CS.VALIDATE` (40_checksum.md R111): it completes in every state; `RES` is 0x01 when the whole operand validates
and 0x00 otherwise, which is no error; with the corner cases and the whole-sum form of the rule. -/
def Obligations.ValidateCommandWritesVerdict : Prop :=
  ∀ s : State, ∃ t, exec .csValidate s = .next t ∧
    t = { s with block := { s.block with
            res := if csValidate Config.cfg ((List.range s.block.len.toNat).map fun i => s.block.buf.read i)
              then 0x01 else 0x00,
            errc := 0x00, err := false, done := true } } ∧
    (s.block.len = 0x00 → t.block.res = 0x00) ∧
    (s.block.len = 0x01 → (t.block.res = 0x01 ↔ s.block.buf.read 0 = 0xFC)) ∧
    (s.block.len ≠ 0x00 → (t.block.res = 0x01 ↔
      sum8 ((List.range s.block.len.toNat).map fun i => s.block.buf.read i) = 0xFC))

/-- The frame of `CS.COMPUTE` and `CS.VALIDATE`: every byte of `BUF`, `LEN`, the key store and the host's part are
unchanged, so every host read but those of `STATUS`, `RES` and `ERRC` gives what it gave. -/
def Obligations.ChecksumCommandsFrame : Prop :=
  ∀ (i : Instr) (s t : State), (i = .csCompute ∨ i = .csValidate) → exec i s = .next t →
    (∀ j, t.block.buf.read j = s.block.buf.read j) ∧ t.block.len = s.block.len ∧ t.block.key = s.block.key ∧
    t.block.kw = s.block.kw ∧ t.script = s.script ∧ t.reads = s.reads ∧
    ∀ a : HostAddr, a ≠ 0x001 → a ≠ 0x002 → a ≠ 0x003 →
      t.block.hostRead Config.cfg a = s.block.hostRead Config.cfg a

/-! ### The frame -/

/-- The frame layout (30_encoding.md R85): fields to bytes and back; the smallest frame has 7 bytes. -/
def Obligations.FrameLayoutRoundTrip : Prop :=
  (∀ f : Frame, frameOfBytes f.toBytes = some f) ∧
  (∀ (bytes : Bytes) (f : Frame), frameOfBytes bytes = some f → f.toBytes = bytes) ∧
  (∀ bytes : Bytes, (frameOfBytes bytes).isSome = true ↔ 7 ≤ bytes.length) ∧
  ∀ (f : Frame) (j : Nat), (f.toBytes[0]? = some f.magic) ∧ f.toBytes[1]? = some f.transferMode ∧
    (∀ h : j < 3, f.toBytes[2 + j]? = some f.staticPrefix[j]) ∧ f.toBytes[5]? = some f.groupCode ∧
    (j < f.payload.length → f.toBytes[6 + j]? = f.payload[j]?) ∧
    f.toBytes[f.toBytes.length - 1]? = some f.checksum

/-- What the checksum covers: all bytes before the checksum byte, `magic` included, and its value is
`(BIAS - sum) mod 256`, with `BIAS = 0xFC` in the machine's configuration (30_encoding.md R86). -/
def Obligations.FrameValidIffChecksumCoversAll : Prop :=
  (∀ (cfg : Cfg) (f : Frame), csValidate cfg f.toBytes = true ↔
    f.checksum = csCompute cfg (f.toBytes.take (f.toBytes.length - 1))) ∧
  ∀ s : Bytes, (csCompute Config.cfg s).toNat = (0xFC + 256 - (s.map BitVec.toNat).sum % 256) % 256

/-! ### The crypto functions -/

/-- The padding is reversible, of fixed length, and keeps the output lengths predictable (41_crypto.md R134). -/
def Obligations.PaddingIsReversibleAndFixed : Prop :=
  ∀ cfg : Cfg, cfg.WF → ∀ p k c : Bytes, unpad cfg (pad cfg p) = p ∧
    pad cfg p = p ++ List.replicate cfg.npad cfg.padByte ∧
    (crEncrypt cfg p k = .ok c → c.length = p.length + cfg.npad) ∧
    (crDecrypt cfg c k = .ok p → p.length = c.length - cfg.npad)

/-- Chaining is ECB or CBC as `MODE` says, and in either mode a length-preserving bijection on whole blocks, under
every accepted key (41_crypto.md R142). -/
def Obligations.ChainingRoundTrip : Prop :=
  ∀ cfg : Cfg, cfg.WF → ∀ k x : Bytes, k.length = cfg.klen → cfg.keyOK k = true → x.length % cfg.blk = 0 →
    (cfg.mode = .ecb → chainEnc cfg k x = ecbEnc cfg k x ∧ chainDec cfg k x = ecbDec cfg k x) ∧
    (cfg.mode = .cbc → chainEnc cfg k x = cbcEnc cfg k x ∧ chainDec cfg k x = cbcDec cfg k x) ∧
    chainDec cfg k (chainEnc cfg k x) = x ∧ chainEnc cfg k (chainDec cfg k x) = x ∧
    (chainEnc cfg k x).length = x.length ∧ (chainDec cfg k x).length = x.length

/-- When `cr_encrypt` and `cr_decrypt` fail, and with which kind: length first, key second
(41_crypto.md R140, R141, R148, R153, R154, R155). -/
def Obligations.CryptoFunctionsFailExactlyWhen : Prop :=
  ∀ (cfg : Cfg) (p k : Bytes),
    (crEncrypt cfg p k = .err .length ↔ (p.length + cfg.npad) % cfg.blk ≠ 0) ∧
    (crEncrypt cfg p k = .err .key ↔
      (p.length + cfg.npad) % cfg.blk = 0 ∧ (k.length ≠ cfg.klen ∨ cfg.keyOK k = false)) ∧
    (crDecrypt cfg p k = .err .length ↔ p.length % cfg.blk ≠ 0 ∨ p.length < cfg.npad) ∧
    (crDecrypt cfg p k = .err .key ↔
      p.length % cfg.blk = 0 ∧ cfg.npad ≤ p.length ∧ (k.length ≠ cfg.klen ∨ cfg.keyOK k = false))

/-- Round trip (41_crypto.md R152). -/
def Obligations.DecryptUndoesEncrypt : Prop :=
  ∀ cfg : Cfg, cfg.WF → ∀ p k c : Bytes, crEncrypt cfg p k = .ok c → crDecrypt cfg c k = .ok p

/-- The reverse round trip holds only up to padding (41_crypto.md R156): re-encryption succeeds; it gives `c` exactly
when the removed bytes were the padding; and all blocks but the last agree in any case. -/
def Obligations.ReencryptionHoldsUpToPadding : Prop :=
  ∀ cfg : Cfg, cfg.WF → ∀ p k c : Bytes, crDecrypt cfg c k = .ok p →
    ∃ c', crEncrypt cfg p k = .ok c' ∧
      (c' = c ↔ ∀ j, c.length - cfg.npad ≤ j → j < c.length → (chainDec cfg k c)[j]? = some cfg.padByte) ∧
      c'.length = c.length ∧ c'.take (c.length - cfg.blk) = c.take (c.length - cfg.blk) ∧
      (cfg.npad = 0 → c' = c)

/-- ECB (41_crypto.md R144, R145, R159): ciphertext block `j` is `E` of plaintext block `j` alone, so equal blocks
give equal blocks and `IV0` has no influence; decryption likewise. -/
def Obligations.EcbWorksBlockByBlock : Prop :=
  ∀ cfg : Cfg, cfg.WF → ∀ k x : Bytes, k.length = cfg.klen → x.length % cfg.blk = 0 →
    ∀ j, j < x.length / cfg.blk →
      blockOf cfg (ecbEnc cfg k x) j = cfg.E k (blockOf cfg x j) ∧
      blockOf cfg (ecbDec cfg k x) j = cfg.D k (blockOf cfg x j)

/-- CBC (41_crypto.md R146, R147, R159): the recurrences block by block, with `c(-1) = IV0`; when `IV0` is all
zero, the first ciphertext block is ECB's. -/
def Obligations.CbcWorksByRecurrence : Prop :=
  ∀ cfg : Cfg, cfg.WF → ∀ k x : Bytes, k.length = cfg.klen → x.length % cfg.blk = 0 →
    ∀ j, j < x.length / cfg.blk →
      blockOf cfg (cbcEnc cfg k x) j = cfg.E k (xorBytes (blockOf cfg x j)
        (if j = 0 then cfg.iv0 else blockOf cfg (cbcEnc cfg k x) (j - 1))) ∧
      blockOf cfg (cbcDec cfg k x) j = xorBytes (cfg.D k (blockOf cfg x j))
        (if j = 0 then cfg.iv0 else blockOf cfg x (j - 1)) ∧
      (cfg.iv0 = List.replicate cfg.blk 0x00 → blockOf cfg (cbcEnc cfg k x) 0 = blockOf cfg (ecbEnc cfg k x) 0)

/-- CBC decryption spreads a change in ciphertext block `j` to plaintext blocks `j` and `j+1` only
(41_crypto.md R159). -/
def Obligations.CbcDecryptionErrorStaysLocal : Prop :=
  ∀ cfg : Cfg, cfg.WF → ∀ k x y : Bytes, k.length = cfg.klen → x.length % cfg.blk = 0 → y.length = x.length →
    ∀ j, (∀ l, l < x.length / cfg.blk → l ≠ j → blockOf cfg y l = blockOf cfg x l) →
      ∀ l, l < x.length / cfg.blk → l ≠ j → l ≠ j + 1 →
        blockOf cfg (cbcDec cfg k y) l = blockOf cfg (cbcDec cfg k x) l

/-- Changing `IV0` changes every ciphertext block of CBC, under every accepted key (41_crypto.md R159). -/
def Obligations.CbcInitialValueReachesEveryBlock : Prop :=
  ∀ cfg : Cfg, cfg.WF → ∀ k x iv : Bytes, k.length = cfg.klen → cfg.keyOK k = true → x.length % cfg.blk = 0 →
    iv.length = cfg.blk → iv ≠ cfg.iv0 → ∀ j, j < x.length / cfg.blk →
      blockOf cfg (cbcEnc { cfg with iv0 := iv } k x) j ≠ blockOf cfg (cbcEnc cfg k x) j

/-! ### The crypto commands -/

/-- `CR.ENCRYPT` completes when its length, capacity and key checks pass (41_crypto.md R150): the ciphertext stands in
`BUF` from index 0, every byte of `BUF` above it is unchanged, `LEN` is the new length, the key store is empty, and
`RES`, the script and the reads are as before. -/
def Obligations.EncryptCommandDeliversCiphertext : Prop :=
  ∀ s : State, s.block.EncryptReady Config.cfg → s.block.buf.wf = true →
    ∃ t, exec .crEncrypt s = .next t ∧
      t.block.done = true ∧ t.block.err = false ∧ t.block.errc = 0x00 ∧ t.block.res = s.block.res ∧
      t.block.len.toNat = s.block.len.toNat + Config.cfg.npad ∧
      (∀ j, (h : j < 64) → t.block.key[j] = 0x00 ∧ t.block.kw[j] = false) ∧
      (chainEnc Config.cfg (s.block.keyOperand Config.cfg) (pad Config.cfg s.block.operand)).length =
        s.block.len.toNat + Config.cfg.npad ∧
      (∀ j, j < s.block.len.toNat + Config.cfg.npad → some (t.block.buf.read j) =
        (chainEnc Config.cfg (s.block.keyOperand Config.cfg) (pad Config.cfg s.block.operand))[j]?) ∧
      (∀ j, s.block.len.toNat + Config.cfg.npad ≤ j → t.block.buf.read j = s.block.buf.read j) ∧
      t.script = s.script ∧ t.reads = s.reads

/-- `CR.DECRYPT` completes when its length and key checks pass (41_crypto.md R151): all of the decrypted bytes stand
in `BUF` from index 0, the removed padding with them; every byte of `BUF` above is unchanged; `LEN` is the new
length, the key store is empty, and `RES`, the script and the reads are as before. -/
def Obligations.DecryptCommandDeliversPlaintext : Prop :=
  ∀ s : State, s.block.DecryptReady Config.cfg → s.block.buf.wf = true →
    ∃ t, exec .crDecrypt s = .next t ∧
      t.block.done = true ∧ t.block.err = false ∧ t.block.errc = 0x00 ∧ t.block.res = s.block.res ∧
      t.block.len.toNat = s.block.len.toNat - Config.cfg.npad ∧
      (∀ j, (h : j < 64) → t.block.key[j] = 0x00 ∧ t.block.kw[j] = false) ∧
      (chainDec Config.cfg (s.block.keyOperand Config.cfg) s.block.operand).length = s.block.len.toNat ∧
      (∀ j, j < s.block.len.toNat → some (t.block.buf.read j) =
        (chainDec Config.cfg (s.block.keyOperand Config.cfg) s.block.operand)[j]?) ∧
      (∀ j, s.block.len.toNat ≤ j → t.block.buf.read j = s.block.buf.read j) ∧
      t.script = s.script ∧ t.reads = s.reads

/-- A `CR.*` command that fails reports the code of the first check that fails, in the order length, capacity
(`CR.ENCRYPT` only), key, clears the key store, and writes nothing else: `BUF`, `LEN` and `RES` are as before
(60_exceptions.md R203; the order is R205's). This holds under every configuration; the machine's `exec` is the
effect on its block under its own. -/
def Obligations.CryptoFailureReportsFirstCause : Prop :=
  (∀ (cfg : Cfg) (i : Instr) (b : Block) (code : Byte),
    (i = .crEncrypt ∧
      ((code = 0x01 ∧ (b.len.toNat + cfg.npad) % cfg.blk ≠ 0) ∨
       (code = 0x03 ∧ (b.len.toNat + cfg.npad) % cfg.blk = 0 ∧ 255 < b.len.toNat + cfg.npad) ∨
       (code = 0x02 ∧ (b.len.toNat + cfg.npad) % cfg.blk = 0 ∧ b.len.toNat + cfg.npad ≤ 255 ∧
         ((∃ j, ∃ h : j < 64, j < cfg.klen ∧ b.kw[j] = false) ∨ cfg.keyOK (b.keyOperand cfg) = false)))) ∨
    (i = .crDecrypt ∧
      ((code = 0x01 ∧ (b.len.toNat % cfg.blk ≠ 0 ∨ b.len.toNat < cfg.npad)) ∨
       (code = 0x02 ∧ b.len.toNat % cfg.blk = 0 ∧ cfg.npad ≤ b.len.toNat ∧
         ((∃ j, ∃ h : j < 64, j < cfg.klen ∧ b.kw[j] = false) ∨ cfg.keyOK (b.keyOperand cfg) = false)))) →
    b.execute cfg i = { b with
      done := true, err := true, errc := code, key := Vector.replicate 64 0x00, kw := Vector.replicate 64 false }) ∧
  ∀ (i : Instr) (s : State), exec i s = .next { s with block := s.block.execute Config.cfg i }

/-- The commands agree with the functions (41_crypto.md R150 and R151, "Agreement"): `CR.ENCRYPT` succeeds exactly
when `cr_encrypt` of the operand is `ok(c)`, every `KW[i] = 1` and `c` fits in 255 bytes, and the operand afterwards is
`c`; `CR.DECRYPT` likewise with `cr_decrypt`. -/
def Obligations.CryptoCommandsAgreeWithFunctions : Prop :=
  ∀ s : State, s.block.buf.wf = true →
    (∃ t, exec .crEncrypt s = .next t ∧
      (t.block.err = false ↔ s.block.keyComplete Config.cfg = true ∧ ∃ c : Bytes, c.length ≤ 255 ∧
        crEncrypt Config.cfg s.block.operand (s.block.keyOperand Config.cfg) = .ok c) ∧
      (∀ c, t.block.err = false → crEncrypt Config.cfg s.block.operand (s.block.keyOperand Config.cfg) = .ok c →
        t.block.operand = c)) ∧
    (∃ t, exec .crDecrypt s = .next t ∧
      (t.block.err = false ↔ s.block.keyComplete Config.cfg = true ∧ ∃ p : Bytes,
        crDecrypt Config.cfg s.block.operand (s.block.keyOperand Config.cfg) = .ok p) ∧
      (∀ p, t.block.err = false → crDecrypt Config.cfg s.block.operand (s.block.keyOperand Config.cfg) = .ok p →
        t.block.operand = p))

/-- Every `CR.*` command, whatever its outcome, empties the key store; a second one without a key load in between
fails for want of a key, unless an earlier check of its own fails first; the commands of the checksum unit and the
illegal ones keep the key store (41_crypto.md R160; where R160 and R205 differ, log entry 11). -/
def Obligations.CryptoCommandConsumesKey : Prop :=
  (∀ (i : Instr) (s : State), (i = .crEncrypt ∨ i = .crDecrypt) → ∃ t, exec i s = .next t ∧
    (∀ j, (h : j < 64) → t.block.key[j] = 0x00 ∧ t.block.kw[j] = false) ∧ t.block.keyComplete Config.cfg = false ∧
    ∀ i2, (i2 = .crEncrypt ∨ i2 = .crDecrypt) → ∃ u, exec i2 t = .next u ∧ u.block.err = true ∧
      (u.block.errc = 0x02 ∨
        (i2 = .crEncrypt ∧ u.block.errc = 0x01 ∧ (t.block.len.toNat + Config.cfg.npad) % Config.cfg.blk ≠ 0) ∨
        (i2 = .crEncrypt ∧ u.block.errc = 0x03 ∧ 255 < t.block.len.toNat + Config.cfg.npad) ∨
        (i2 = .crDecrypt ∧ u.block.errc = 0x01 ∧
          (t.block.len.toNat % Config.cfg.blk ≠ 0 ∨ t.block.len.toNat < Config.cfg.npad)))) ∧
  (∀ (v : Byte) (s t : State), ¬ isCryptoCommand v → decode v ≠ .command .srst → command v s = .next t →
    t.block.key = s.block.key ∧ t.block.kw = s.block.kw)

/-- Failures are precise (60_exceptions.md R206): a command byte that ends with `ERR = 1` has left `BUF`, `LEN` and
`RES` as they were. -/
def Obligations.FailedCommandKeepsData : Prop :=
  ∀ (v : Byte) (s t : State), command v s = .next t → t.block.err = true →
    t.block.buf = s.block.buf ∧ t.block.len = s.block.len ∧ t.block.res = s.block.res ∧ t.block.done = true

/-- Encrypting and then, with the same key loaded again, decrypting gives the operand back, byte for byte, with `LEN`
as it was (41_crypto.md R152 in the shell; 70_reset_and_hazards.md R247). -/
def Obligations.EncryptThenDecryptRestoresOperand : Prop :=
  ∀ s : State, s.block.EncryptReady Config.cfg → s.block.buf.wf = true →
    ∃ t, exec .crEncrypt s = .next t ∧
      ∃ u, exec .crDecrypt (t.withBlock { t.block with key := s.block.key, kw := s.block.kw }) = .next u ∧
        u.block.err = false ∧ u.block.len = s.block.len ∧ u.block.operand = s.block.operand

/-! ### Whole-machine rules -/

/-- The key cannot be read (20_memory.md R55): a read of `CMD` or of any `KEY` address gives 0x00, and no read at any
address tells apart two blocks that differ only in the bytes of `KEY`. -/
def Obligations.KeyCannotBeRead : Prop :=
  (∀ (b : Block) (a : HostAddr), a.toNat = 0x000 ∨ (0x040 ≤ a.toNat ∧ a.toNat < 0x040 + Config.cfg.klen) →
    b.hostRead Config.cfg a = 0x00) ∧
  ∀ (b c : Block) (a : HostAddr), b.SameButKey c → b.hostRead Config.cfg a = c.hostRead Config.cfg a

/-- No step that is not a `CR.*` command lets anything but `KEY` depend on `KEY`: two machines that differ only in
the bytes of `KEY` take steps that differ only there, with the same bytes read. -/
def Obligations.KeyStaysHiddenOutsideCrypto : Prop :=
  ∀ s t : State, s.block.SameButKey t.block → s.script = t.script → s.reads = t.reads →
    (∀ v rest, s.script = .write 0x000 v :: rest → ¬ isCryptoCommand v) →
    ∃ s' t', step s = .next s' ∧ step t = .next t' ∧ s'.block.SameButKey t'.block ∧ s'.script = t'.script ∧
      s'.reads = t'.reads

/-- A whole script without a `CR.*` command returns the same bytes whatever the key (20_memory.md R55). -/
def Obligations.ReadsNeverRevealKey : Prop :=
  ∀ (cfg : Cfg) (script : List HostAction) (b c : Block), b.SameButKey c →
    (∀ v, HostAction.write 0x000 v ∈ script → ¬ isCryptoCommand v) →
    (b.run cfg script).2 = (c.run cfg script).2

/-- No command reads `DONE`, `ERR`, `ERRC` or `RES` (10_state.md R38, R40): from blocks that agree on `BUF`, `LEN`,
`KEY` and `KW`, every command byte leaves blocks that agree on these and on the outcome, and on `RES` wherever the
command writes it. -/
def Obligations.CommandsIgnoreEarlierOutcomes : Prop :=
  ∀ (v : Byte) (s t : State), s.block.SameOperands t.block →
    ∃ s' t', command v s = .next s' ∧ command v t = .next t' ∧ s'.block.SameOperands t'.block ∧
      s'.block.done = t'.block.done ∧ s'.block.err = t'.block.err ∧ s'.block.errc = t'.block.errc ∧
      (s'.block.res = t'.block.res ∨ (s'.block.res = s.block.res ∧ t'.block.res = t.block.res))

/-- `LEN` bounds everything (70_reset_and_hazards.md R254; 10_state.md R29): blocks that agree on all but the bytes of
`BUF` at index `LEN` and above end a command in agreement on all but `BUF`, and on the new operand. -/
def Obligations.BytesAboveLenAreNeverRead : Prop :=
  ∀ (i : Instr) (s t : State), s.block.buf.wf = true → t.block.buf.wf = true →
    t.block = { s.block with buf := t.block.buf } →
    (∀ j, j < s.block.len.toNat → t.block.buf.read j = s.block.buf.read j) →
    ∃ s' t', exec i s = .next s' ∧ exec i t = .next t' ∧ t'.block = { s'.block with buf := t'.block.buf } ∧
      t'.block.operand = s'.block.operand

/-! ### The invariant, and runs -/

/-- The invariant holds after reset (the canonical empty `BUF` is the model's form of R41's zeros). -/
def Obligations.ResetMeetsInv : Prop := Inv State.reset

/-- Every step keeps the invariant: `BUF` canonical; `ERRC` one of the codes of 30_encoding.md R78, and `ERR = 1`
exactly when it is not 0x00; no outcome before a command has completed; unwritten key bytes 0x00 and no key slot at
`KLEN` or above (10_state.md R23, R27, R28). The canonical form and the slots at `KLEN` and above are the model's
choice (log entries 8 and 3). -/
def Obligations.StepKeepsInv : Prop := ∀ s t : State, Inv s → step s = .next t → Inv t

/-- The machine's step performs the host's next action as the step function of 60_exceptions.md R216 does. That the
host's actions stand in a script and its bytes in `reads` is the model's choice (log entry 4). -/
def Obligations.StepMatchesTransaction : Prop :=
  ∀ (s : State) (x : HostAction) (rest : List HostAction), s.script = x :: rest →
    step s = .next
      { block := (s.block.transact Config.cfg x).1, script := rest,
        reads := s.reads ++ (s.block.transact Config.cfg x).2.toList }

/-- A run is a fold of the step function over the script's trace (60_exceptions.md R216; 70_reset_and_hazards.md
R255): as many steps as the script has actions leave the folded state and the bytes its reads returned. The script and the reads are
the model's choice (log entry 4). -/
def Obligations.RunIsFoldOverScript : Prop :=
  ∀ s : State, Sys2Proof.core.run s.script.length s = .next
    { block := (s.block.run Config.cfg s.script).1, script := [], reads := s.reads ++ (s.block.run Config.cfg s.script).2 }

/-- The transactions of `load` (30_encoding.md R81) leave the bytes as the operand and change nothing but `BUF` and
`LEN`. -/
def Obligations.LoadLeavesOperand : Prop :=
  ∀ (cfg : Cfg) (b : Block) (bytes : Bytes), b.buf.wf = true → (Line.load bytes).wf = true →
    (b.run cfg (expandLine (.load bytes))).2 = [] ∧
    (b.run cfg (expandLine (.load bytes))).1.operand = bytes ∧
    (b.run cfg (expandLine (.load bytes))).1 =
      { b with len := BitVec.ofNat 8 bytes.length, buf := (b.run cfg (expandLine (.load bytes))).1.buf }

/-- The transactions of `key` (30_encoding.md R81) with `KLEN` bytes leave a complete key store that holds them and
change nothing else. -/
def Obligations.KeyLineLoadsKey : Prop :=
  ∀ cfg : Cfg, cfg.WF → ∀ (b : Block) (k : Bytes), k.length = cfg.klen →
    (b.run cfg (expandLine (.key k))).2 = [] ∧
    (b.run cfg (expandLine (.key k))).1.keyOperand cfg = k ∧
    (b.run cfg (expandLine (.key k))).1.keyComplete cfg = true ∧
    (b.run cfg (expandLine (.key k))).1 = { b with
      key := (b.run cfg (expandLine (.key k))).1.key, kw := (b.run cfg (expandLine (.key k))).1.kw }
end

