-- ==== Sys2Proof/Laws/State.lean ====
section
/-! SUPPORT. One lemma per field per update of the state, each true by unfolding the update once. -/

namespace Sys2Proof.Machine

variable (b : Block) (s : State)

/-! ### `report` -/

@[simp] theorem Block.report_done (e : Bool) (c : Byte) : (b.report e c).done = true := rfl
@[simp] theorem Block.report_err (e : Bool) (c : Byte) : (b.report e c).err = e := rfl
@[simp] theorem Block.report_errc (e : Bool) (c : Byte) : (b.report e c).errc = c := rfl
@[simp] theorem Block.report_res (e : Bool) (c : Byte) : (b.report e c).res = b.res := rfl
@[simp] theorem Block.report_len (e : Bool) (c : Byte) : (b.report e c).len = b.len := rfl
@[simp] theorem Block.report_key (e : Bool) (c : Byte) : (b.report e c).key = b.key := rfl
@[simp] theorem Block.report_kw (e : Bool) (c : Byte) : (b.report e c).kw = b.kw := rfl
@[simp] theorem Block.report_buf (e : Bool) (c : Byte) : (b.report e c).buf = b.buf := rfl

/-! ### `clearKeyStore` -/

@[simp] theorem Block.clearKeyStore_done : b.clearKeyStore.done = b.done := rfl
@[simp] theorem Block.clearKeyStore_err : b.clearKeyStore.err = b.err := rfl
@[simp] theorem Block.clearKeyStore_errc : b.clearKeyStore.errc = b.errc := rfl
@[simp] theorem Block.clearKeyStore_res : b.clearKeyStore.res = b.res := rfl
@[simp] theorem Block.clearKeyStore_len : b.clearKeyStore.len = b.len := rfl
@[simp] theorem Block.clearKeyStore_key : b.clearKeyStore.key = Vector.replicate 64 0x00 := rfl
@[simp] theorem Block.clearKeyStore_kw : b.clearKeyStore.kw = Vector.replicate 64 false := rfl
@[simp] theorem Block.clearKeyStore_buf : b.clearKeyStore.buf = b.buf := rfl

/-! ### `writeKey` -/

@[simp] theorem Block.writeKey_done (i : Nat) (v : Byte) : (b.writeKey i v).done = b.done := rfl
@[simp] theorem Block.writeKey_err (i : Nat) (v : Byte) : (b.writeKey i v).err = b.err := rfl
@[simp] theorem Block.writeKey_errc (i : Nat) (v : Byte) : (b.writeKey i v).errc = b.errc := rfl
@[simp] theorem Block.writeKey_res (i : Nat) (v : Byte) : (b.writeKey i v).res = b.res := rfl
@[simp] theorem Block.writeKey_len (i : Nat) (v : Byte) : (b.writeKey i v).len = b.len := rfl
@[simp] theorem Block.writeKey_key (i : Nat) (v : Byte) : (b.writeKey i v).key = b.key.setIfInBounds i v := rfl
@[simp] theorem Block.writeKey_kw (i : Nat) (v : Byte) : (b.writeKey i v).kw = b.kw.setIfInBounds i true := rfl
@[simp] theorem Block.writeKey_buf (i : Nat) (v : Byte) : (b.writeKey i v).buf = b.buf := rfl

/-! ### `deliver` -/

@[simp] theorem Block.deliver_done (o : Bytes) (n : Nat) : (b.deliver o n).done = true := rfl
@[simp] theorem Block.deliver_err (o : Bytes) (n : Nat) : (b.deliver o n).err = false := rfl
@[simp] theorem Block.deliver_errc (o : Bytes) (n : Nat) : (b.deliver o n).errc = errNone := rfl
@[simp] theorem Block.deliver_res (o : Bytes) (n : Nat) : (b.deliver o n).res = b.res := rfl
@[simp] theorem Block.deliver_len (o : Bytes) (n : Nat) : (b.deliver o n).len = BitVec.ofNat 8 n := rfl
@[simp] theorem Block.deliver_key (o : Bytes) (n : Nat) : (b.deliver o n).key = Vector.replicate 64 0x00 := rfl
@[simp] theorem Block.deliver_kw (o : Bytes) (n : Nat) : (b.deliver o n).kw = Vector.replicate 64 false := rfl
@[simp] theorem Block.deliver_buf (o : Bytes) (n : Nat) : (b.deliver o n).buf = b.buf.writeAll 0 o := rfl

/-! ### `raiseCryptoError` -/

@[simp] theorem Block.raise_done (c : CryptoCause) : (b.raiseCryptoError c).done = true := rfl
@[simp] theorem Block.raise_err (c : CryptoCause) : (b.raiseCryptoError c).err = true := rfl
@[simp] theorem Block.raise_errc (c : CryptoCause) : (b.raiseCryptoError c).errc = c.code := rfl
@[simp] theorem Block.raise_res (c : CryptoCause) : (b.raiseCryptoError c).res = b.res := rfl
@[simp] theorem Block.raise_len (c : CryptoCause) : (b.raiseCryptoError c).len = b.len := rfl
@[simp] theorem Block.raise_key (c : CryptoCause) : (b.raiseCryptoError c).key = Vector.replicate 64 0x00 := rfl
@[simp] theorem Block.raise_kw (c : CryptoCause) : (b.raiseCryptoError c).kw = Vector.replicate 64 false := rfl
@[simp] theorem Block.raise_buf (c : CryptoCause) : (b.raiseCryptoError c).buf = b.buf := rfl

/-! ### The state around the block -/

@[simp] theorem State.withBlock_block (c : Block) : (s.withBlock c).block = c := rfl
@[simp] theorem State.withBlock_script (c : Block) : (s.withBlock c).script = s.script := rfl
@[simp] theorem State.withBlock_reads (c : Block) : (s.withBlock c).reads = s.reads := rfl

/-- `SRST` leaves exactly the reset state (42_control.md R180). -/
theorem Block.srst_eq_reset : b.srst = Block.reset := rfl

/-- An empty key store holds zeros. -/
theorem Block.clearKeyStore_get (i : Nat) (h : i < 64) :
    b.clearKeyStore.key[i] = 0x00 ∧ b.clearKeyStore.kw[i] = false := by simp

end Sys2Proof.Machine
end

