-- ==== Sys2Proof/Laws/Memory.lean ====
section
/-! SUPPORT. `BUF`: a read after a write, and every operation keeps the canonical form. -/

namespace Sys2Proof.Machine

namespace Memory

@[simp] theorem read_nil (i : Nat) : Memory.read [] i = 0x00 := rfl

theorem wfFrom_mono {lo lo' : Nat} {m : Memory} (h : lo' ≤ lo) (hm : wfFrom lo m = true) : wfFrom lo' m = true := by
  cases m with
  | nil => rfl
  | cons c m =>
    simp only [wfFrom, Bool.and_eq_true, decide_eq_true_eq] at hm ⊢
    exact ⟨⟨⟨by omega, hm.1.1.2⟩, hm.1.2⟩, hm.2⟩

/-- Below its least index a canonical memory reads as unlisted. -/
theorem read_below {lo i : Nat} {m : Memory} (hm : wfFrom lo m = true) (h : i < lo) : m.read i = 0x00 := by
  induction m generalizing lo with
  | nil => rfl
  | cons c m ih =>
    simp only [wfFrom, Bool.and_eq_true, decide_eq_true_eq] at hm
    have hne : c.1 ≠ i := by omega
    simp only [read, hne, if_false]
    exact ih hm.2 (by omega)

theorem wfFrom_put {lo i : Nat} {m : Memory} (v : Byte) (hm : wfFrom lo m = true) (hlo : lo ≤ i) (hi : i < 256) :
    wfFrom lo (m.put i v) = true := by
  induction m generalizing lo with
  | nil => by_cases hv : v = 0#8 <;> simp [put, wfFrom, hv, hlo, hi]
  | cons c m ih =>
    obtain ⟨a, w⟩ := c
    have hm' := hm
    simp only [wfFrom, Bool.and_eq_true, decide_eq_true_eq] at hm
    unfold put
    split
    · simp only [wfFrom, Bool.and_eq_true, decide_eq_true_eq]
      exact ⟨hm.1, ih hm.2 (by omega)⟩
    · split
      · next hai =>
        subst hai
        split
        · exact wfFrom_mono (by omega) hm.2
        · next hv => simpa [wfFrom, hlo, hi, hm.2] using hv
      · split
        · exact hm'
        · next h1 h2 hv =>
          simp only [wfFrom, Bool.and_eq_true, decide_eq_true_eq]
          exact ⟨⟨⟨hlo, hi⟩, hv⟩, ⟨⟨by omega, hm.1.1.2⟩, hm.1.2⟩, hm.2⟩

theorem read_put {lo i : Nat} {m : Memory} (v : Byte) (j : Nat) (hm : wfFrom lo m = true) :
    (m.put i v).read j = if i = j then v else m.read j := by
  induction m generalizing lo with
  | nil => by_cases hv : v = 0#8 <;> simp [put, read, hv]
  | cons c m ih =>
    obtain ⟨a, w⟩ := c
    simp only [wfFrom, Bool.and_eq_true, decide_eq_true_eq] at hm
    unfold put
    split
    · next hai =>
      simp only [read, ih hm.2]
      by_cases hij : i = j
      · subst hij; simp [show a ≠ i by omega]
      · simp [hij]
    · split
      · next hai =>
        subst hai
        by_cases hv : v = 0#8
        · by_cases haj : a = j
          · subst haj; simp [hv, read_below hm.2]
          · simp [hv, read, haj]
        · by_cases haj : a = j <;> simp [hv, read, haj]
      · next h1 h2 =>
        by_cases hv : v = 0#8
        · by_cases hij : i = j
          · subst hij
            have : Memory.read m i = 0x00 := read_below hm.2 (by omega)
            simp [hv, read, h2, this]
          · simp [hv, hij]
        · by_cases hij : i = j <;> simp [hv, read, hij]

/-- Every host write to `BUF` keeps the canonical form. -/
theorem wf_write {m : Memory} (hm : m.wf = true) (i : Nat) (v : Byte) : (m.write i v).wf = true := by
  unfold write wf at *
  split
  · next h => exact wfFrom_put v hm (Nat.zero_le i) h
  · exact hm

/-- What `BUF[j]` holds after `BUF[i] <- v`. -/
theorem read_write {m : Memory} (hm : m.wf = true) (i j : Nat) (v : Byte) :
    (m.write i v).read j = if i = j ∧ i < 256 then v else m.read j := by
  unfold write
  by_cases h : i < 256
  · rw [if_pos h, read_put v j hm]; simp [h]
  · simp [h]

theorem wf_writeAll {m : Memory} (hm : m.wf = true) (i : Nat) (bs : Bytes) : (m.writeAll i bs).wf = true := by
  induction bs generalizing m i with
  | nil => exact hm
  | cons v bs ih => exact ih (wf_write hm i v) (i + 1)

/-- What `BUF[j]` holds after a run of bytes is written from index `i`. -/
theorem read_writeAll {m : Memory} (hm : m.wf = true) (i j : Nat) (bs : Bytes) (hfit : i + bs.length ≤ 256) :
    (m.writeAll i bs).read j = if i ≤ j then (bs[j - i]?).getD (m.read j) else m.read j := by
  induction bs generalizing m i with
  | nil => simp [writeAll]
  | cons v bs ih =>
    simp only [List.length_cons] at hfit
    rw [writeAll, ih (wf_write hm i v) (i + 1) (by omega), read_write hm]
    by_cases hij : i = j
    · subst hij
      simp [show i < 256 by omega]
    · by_cases hlt : i + 1 ≤ j
      · have : j - i = (j - (i + 1)) + 1 := by omega
        simp [hij, hlt, show i ≤ j by omega, this]
      · simp [hij, hlt, show ¬ i ≤ j by omega]

theorem length_slice (m : Memory) (i n : Nat) : (m.slice i n).length = n := by simp [slice]

theorem getElem_slice (m : Memory) (i n j : Nat) (h : j < (m.slice i n).length) :
    (m.slice i n)[j] = m.read (i + j) := by simp [slice]

/-- What was written is what the operand at index 0 then is. -/
theorem slice_writeAll {m : Memory} (hm : m.wf = true) (bs : Bytes) (hfit : bs.length ≤ 256) (n : Nat)
    (hn : n ≤ bs.length) : (m.writeAll 0 bs).slice 0 n = bs.take n := by
  apply List.ext_getElem
  · simp [length_slice, hn]
  · intro j h1 h2
    rw [length_slice] at h1
    rw [getElem_slice, read_writeAll hm 0 (0 + j) bs (by omega)]
    simp [show j < bs.length by omega]

theorem read_reset (i : Nat) : Block.reset.buf.read i = 0x00 := rfl

/-- Two canonical memories that read alike are the same list. -/
theorem eq_of_read_eq {lo lo' : Nat} {m m' : Memory} (hm : wfFrom lo m = true) (hm' : wfFrom lo' m' = true)
    (h : ∀ i, m.read i = m'.read i) : m = m' := by
  induction m generalizing m' lo lo' with
  | nil =>
    cases m' with
    | nil => rfl
    | cons c m' =>
      simp only [wfFrom, Bool.and_eq_true, decide_eq_true_eq] at hm'
      have := h c.1
      simp [read] at this
      exact absurd this.symm hm'.1.2
  | cons c m ih =>
    cases m' with
    | nil =>
      simp only [wfFrom, Bool.and_eq_true, decide_eq_true_eq] at hm
      have := h c.1
      simp [read] at this
      exact absurd this hm.1.2
    | cons c' m' =>
      obtain ⟨a, v⟩ := c
      obtain ⟨a', v'⟩ := c'
      have hw := hm; have hw' := hm'
      simp only [wfFrom, Bool.and_eq_true, decide_eq_true_eq] at hm hm'
      have haa : a = a' := by
        rcases Nat.lt_trichotomy a a' with hlt | heq | hgt
        · have h1 := h a
          rw [read_below (m := (a', v') :: m') (lo := a') (by
            simp only [wfFrom, Bool.and_eq_true, decide_eq_true_eq]
            exact ⟨⟨⟨Nat.le_refl _, hm'.1.1.2⟩, hm'.1.2⟩, hm'.2⟩) hlt] at h1
          simp [read] at h1
          exact absurd h1 hm.1.2
        · exact heq
        · have h1 := h a'
          rw [read_below (m := (a, v) :: m) (lo := a) (by
            simp only [wfFrom, Bool.and_eq_true, decide_eq_true_eq]
            exact ⟨⟨⟨Nat.le_refl _, hm.1.1.2⟩, hm.1.2⟩, hm.2⟩) hgt] at h1
          simp [read] at h1
          exact absurd h1.symm hm'.1.2
      subst haa
      have hv : v = v' := by simpa [read] using h a
      subst hv
      have : m = m' := by
        apply ih hm.2 hm'.2
        intro i
        by_cases hai : a = i
        · subst hai
          rw [read_below hm.2 (by omega), read_below hm'.2 (by omega)]
        · simpa [read, hai] using h i
      rw [this]

end Memory

end Sys2Proof.Machine
end

