-- ==== Sys2Proof/Laws/Checksum.lean ====
section
/-! SUPPORT. The byte sum and the two checksum functions. -/

namespace Sys2Proof.Machine

@[simp] theorem sum8_nil : sum8 [] = 0x00 := rfl

theorem sum8_cons (v : Byte) (s : Bytes) : sum8 (v :: s) = v + sum8 s := by
  apply BitVec.eq_of_toNat_eq
  simp [sum8]

theorem sum8_append (s t : Bytes) : sum8 (s ++ t) = sum8 s + sum8 t := by
  induction s with
  | nil => simp
  | cons v s ih => rw [List.cons_append, sum8_cons, ih, sum8_cons, BitVec.add_assoc]

theorem sum8_singleton (v : Byte) : sum8 [v] = v := by rw [sum8_cons]; simp

theorem sum8_replicate_zero (n : Nat) : sum8 (List.replicate n 0#8) = 0#8 := by
  induction n with
  | zero => rfl
  | succ n ih => rw [List.replicate_succ, sum8_cons, ih]; rfl

/-- The byte-serial accumulator, from any start value. -/
theorem foldl_add_eq (s : Bytes) (acc : Byte) : s.foldl (fun a v => a + v) acc = acc + sum8 s := by
  induction s generalizing acc with
  | nil => simp
  | cons v s ih => rw [List.foldl_cons, ih, sum8_cons, BitVec.add_assoc]

/-- Replacing one byte changes the sum by the difference. -/
theorem sum8_set (s : Bytes) (i : Nat) (v : Byte) (h : i < s.length) : sum8 (s.set i v) + s[i] = sum8 s + v := by
  induction s generalizing i with
  | nil => simp at h
  | cons w s ih =>
    cases i with
    | zero => simp only [List.set_cons_zero, List.getElem_cons_zero, sum8_cons]; bv_omega
    | succ i =>
      have := ih i (by simpa using h)
      simp only [List.set_cons_succ, List.getElem_cons_succ, sum8_cons]
      rw [BitVec.add_assoc, this, BitVec.add_assoc]

@[simp] theorem csValidate_nil (cfg : Cfg) : csValidate cfg [] = false := rfl

/-- `cs_validate` of a sequence split before its last byte (40_checksum.md R102). -/
theorem csValidate_append_singleton (cfg : Cfg) (s : Bytes) (c : Byte) :
    csValidate cfg (s ++ [c]) = (csCompute cfg s == c) := by
  simp [csValidate]

end Sys2Proof.Machine
end

