-- ==== Sys2Proof/Laws/Config.lean ====
section
/-! SUPPORT. What is known of the machine's configuration: it is well formed (00_scope.md R10), its cipher accepts
some key, and `BIAS = 0xFC`. -/

namespace Sys2Proof

theorem Config.cfg_wf : Config.cfg.WF := Config.built.wf

theorem Config.cfg_bias : Config.cfg.bias = 0xFC := rfl

theorem Config.cfg_accepts : ∃ k : Bytes, k.length = Config.cfg.klen ∧ Config.cfg.keyOK k = true :=
  Config.built.accepts

namespace OpenParams.WF

variable {p : OpenParams} (h : p.WF)
include h

/-- The numeric part of R10, spelled out. -/
theorem bounds : (1 ≤ p.blk ∧ p.blk ≤ 64) ∧ (1 ≤ p.klen ∧ p.klen ≤ 64) ∧ p.npad < p.blk ∧ p.iv0.length = p.blk := by
  have := h.sized
  simp only [OpenParams.sized, Bool.and_eq_true, decide_eq_true_eq] at this
  omega

theorem blk_pos : 0 < p.blk := by have := h.bounds; omega

theorem klen_pos : 0 < p.klen := by have := h.bounds; omega

theorem klen_le : p.klen ≤ 64 := by have := h.bounds; omega

theorem npad_lt : p.npad < p.blk := by have := h.bounds; omega

theorem iv0_length : p.iv0.length = p.blk := by have := h.bounds; omega

end OpenParams.WF

end Sys2Proof
end

