-- ==== Sys2Proof/Laws/Crypto.lean ====
section
/-! SUPPORT. Padding, blocks and chaining on lists of whole blocks. -/

namespace Sys2Proof

@[simp] theorem length_xorBytes (a b : Bytes) : (xorBytes a b).length = min a.length b.length := by
  simp [xorBytes]

/-- Exclusive or with the same sequence twice gives the first one back. -/
theorem xorBytes_cancel (a b : Bytes) (h : a.length = b.length) : xorBytes (xorBytes a b) b = a := by
  unfold xorBytes
  induction a generalizing b with
  | nil => cases b <;> simp
  | cons x a ih =>
    cases b with
    | nil => simp at h
    | cons y b =>
      simp only [List.length_cons, Nat.add_right_cancel_iff] at h
      simp only [List.zipWith_cons_cons, ih b h]
      rw [BitVec.xor_assoc, BitVec.xor_self, BitVec.xor_zero]

/-- Different sequences stay different under exclusive or with a third. -/
theorem xorBytes_inj_right (x a b : Bytes) (ha : x.length = a.length) (hb : x.length = b.length)
    (h : xorBytes x a = xorBytes x b) : a = b := by
  have e : ∀ c : Bytes, xorBytes x c = xorBytes c x := by
    intro c
    simp only [xorBytes, List.zipWith_comm_of_comm (fun u v => BitVec.xor_comm u v)]
  rw [e a, e b] at h
  rw [← xorBytes_cancel a x ha.symm, h, xorBytes_cancel b x hb.symm]

namespace Machine

variable {cfg : Cfg}

/-! ### Padding -/

theorem length_pad (p : Bytes) : (pad cfg p).length = p.length + cfg.npad := by simp [pad]

theorem length_unpad (x : Bytes) : (unpad cfg x).length = x.length - cfg.npad := by simp [unpad]

theorem unpad_pad (p : Bytes) : unpad cfg (pad cfg p) = p := by
  simp [unpad, pad]

/-! ### Blocks -/

/-- Every block of a list has `BLK` bytes. -/
def AllBlocks (cfg : Cfg) (bs : List Bytes) : Prop := ∀ b ∈ bs, b.length = cfg.blk

theorem length_flatten_blocks {bs : List Bytes} (h : AllBlocks cfg bs) : bs.flatten.length = bs.length * cfg.blk := by
  induction bs with
  | nil => simp
  | cons b bs ih =>
    rw [List.flatten_cons, List.length_append, ih fun x hx => h x (List.mem_cons_of_mem _ hx),
      h b List.mem_cons_self, List.length_cons, Nat.succ_mul, Nat.add_comm]

theorem length_blocks (x : Bytes) : (blocks cfg x).length = x.length / cfg.blk := by simp [blocks]

theorem getElem_blocks (x : Bytes) (j : Nat) (h : j < (blocks cfg x).length) :
    (blocks cfg x)[j] = blockOf cfg x j := by simp [blocks]

theorem length_blockOf (x : Bytes) (j : Nat) (hw : x.length % cfg.blk = 0) (hj : j < x.length / cfg.blk) :
    (blockOf cfg x j).length = cfg.blk := by
  have hx : x.length = x.length / cfg.blk * cfg.blk := by
    have := Nat.div_add_mod x.length cfg.blk
    rw [hw, Nat.add_zero, Nat.mul_comm] at this
    exact this.symm
  have h1 : (j + 1) * cfg.blk ≤ x.length / cfg.blk * cfg.blk := Nat.mul_le_mul_right _ hj
  rw [Nat.succ_mul] at h1
  simp only [blockOf, List.length_take, List.length_drop]
  omega

theorem allBlocks_blocks (x : Bytes) (hw : x.length % cfg.blk = 0) : AllBlocks cfg (blocks cfg x) := by
  intro b hb
  obtain ⟨j, hj, rfl⟩ := List.mem_iff_getElem.mp hb
  rw [getElem_blocks]
  exact length_blockOf x j hw (by simpa [length_blocks] using hj)

/-- Block `j` of a concatenation of blocks. -/
theorem blockOf_flatten {bs : List Bytes} (h : AllBlocks cfg bs) (j : Nat) (hj : j < bs.length) :
    blockOf cfg bs.flatten j = bs[j] := by
  induction bs generalizing j with
  | nil => simp at hj
  | cons b bs ih =>
    have hb := h b List.mem_cons_self
    have ht : AllBlocks cfg bs := fun x hx => h x (List.mem_cons_of_mem _ hx)
    cases j with
    | zero => simp [blockOf, hb]
    | succ j =>
      have := ih ht j (by simpa using hj)
      simp only [List.getElem_cons_succ, ← this, blockOf, List.flatten_cons]
      rw [List.drop_append, hb, Nat.succ_mul, List.drop_eq_nil_of_le (by omega)]
      simp

/-- Splitting a concatenation of blocks gives the blocks. -/
theorem blocks_flatten (hpos : 0 < cfg.blk) {bs : List Bytes} (h : AllBlocks cfg bs) : blocks cfg bs.flatten = bs := by
  have hl : bs.flatten.length / cfg.blk = bs.length := by
    rw [length_flatten_blocks h, Nat.mul_div_cancel _ hpos]
  apply List.ext_getElem
  · rw [length_blocks, hl]
  · intro j h1 h2
    rw [getElem_blocks, blockOf_flatten h j h2]

/-- Joining the blocks of whole blocks gives the sequence back. -/
theorem flatten_blocks (hpos : 0 < cfg.blk) (x : Bytes) (hw : x.length % cfg.blk = 0) :
    (blocks cfg x).flatten = x := by
  obtain ⟨n, hn⟩ : ∃ n, x.length = n * cfg.blk :=
    ⟨x.length / cfg.blk, by have := Nat.div_add_mod x.length cfg.blk; rw [hw, Nat.add_zero, Nat.mul_comm] at this; exact this.symm⟩
  clear hw
  have key : ∀ (n : Nat) (x : Bytes), x.length = n * cfg.blk →
      ((List.range n).map (blockOf cfg x)).flatten = x := by
    intro n
    induction n with
    | zero => intro x hx; simp at hx; simp [hx]
    | succ n ih =>
      intro x hx
      rw [Nat.succ_mul] at hx
      have h := ih (x.drop cfg.blk) (by simp [hx])
      rw [List.range_succ_eq_map, List.map_cons, List.flatten_cons, List.map_map]
      have : (blockOf cfg x ∘ Nat.succ) = blockOf cfg (x.drop cfg.blk) := by
        funext j
        simp only [Function.comp, blockOf, List.drop_drop, Nat.succ_mul]
        rw [Nat.add_comm]
      rw [this, h]
      simp [blockOf]
  rw [blocks, hn, Nat.mul_div_cancel _ hpos]
  exact key n x hn

/-! ### Chaining over a list of blocks -/

theorem length_cbcEncBlocks (k c : Bytes) (xs : List Bytes) : (cbcEncBlocks cfg k c xs).length = xs.length := by
  induction xs generalizing c with
  | nil => rfl
  | cons x xs ih => simp [cbcEncBlocks, ih]

theorem length_cbcDecBlocks (k c : Bytes) (ys : List Bytes) : (cbcDecBlocks cfg k c ys).length = ys.length := by
  induction ys generalizing c with
  | nil => rfl
  | cons y ys ih => simp [cbcDecBlocks, ih]

section Whole
variable (hwf : cfg.WF) (k : Bytes) (hk : k.length = cfg.klen)
include hwf hk

theorem allBlocks_mapE {xs : List Bytes} (h : AllBlocks cfg xs) : AllBlocks cfg (xs.map (cfg.E k)) := by
  intro b hb
  obtain ⟨x, hx, rfl⟩ := List.mem_map.mp hb
  exact hwf.E_length k x hk (h x hx)

theorem allBlocks_mapD {xs : List Bytes} (h : AllBlocks cfg xs) : AllBlocks cfg (xs.map (cfg.D k)) := by
  intro b hb
  obtain ⟨x, hx, rfl⟩ := List.mem_map.mp hb
  exact hwf.D_length k x hk (h x hx)

theorem allBlocks_cbcEnc {c : Bytes} {xs : List Bytes} (hc : c.length = cfg.blk) (h : AllBlocks cfg xs) :
    AllBlocks cfg (cbcEncBlocks cfg k c xs) := by
  induction xs generalizing c with
  | nil => intro b hb; simp [cbcEncBlocks] at hb
  | cons x xs ih =>
    have hx := h x List.mem_cons_self
    have hE : (cfg.E k (xorBytes x c)).length = cfg.blk := hwf.E_length k _ hk (by simp [hx, hc])
    intro b hb
    simp only [cbcEncBlocks, List.mem_cons] at hb
    rcases hb with rfl | hb
    · exact hE
    · exact ih hE (fun y hy => h y (List.mem_cons_of_mem _ hy)) b hb

theorem allBlocks_cbcDec {c : Bytes} {ys : List Bytes} (hc : c.length = cfg.blk) (h : AllBlocks cfg ys) :
    AllBlocks cfg (cbcDecBlocks cfg k c ys) := by
  induction ys generalizing c with
  | nil => intro b hb; simp [cbcDecBlocks] at hb
  | cons y ys ih =>
    have hy := h y List.mem_cons_self
    have hD := hwf.D_length k y hk hy
    intro b hb
    simp only [cbcDecBlocks, List.mem_cons] at hb
    rcases hb with rfl | hb
    · simp [hD, hc]
    · exact ih hy (fun z hz => h z (List.mem_cons_of_mem _ hz)) b hb

/-- Decrypting CBC blocks that were encrypted from the same chaining value. -/
theorem cbcDec_cbcEnc_blocks (hok : cfg.keyOK k = true) {c : Bytes} {xs : List Bytes} (hc : c.length = cfg.blk)
    (h : AllBlocks cfg xs) : cbcDecBlocks cfg k c (cbcEncBlocks cfg k c xs) = xs := by
  induction xs generalizing c with
  | nil => rfl
  | cons x xs ih =>
    have hx := h x List.mem_cons_self
    have hl : (xorBytes x c).length = cfg.blk := by simp [hx, hc]
    have hE : (cfg.E k (xorBytes x c)).length = cfg.blk := hwf.E_length k _ hk hl
    rw [cbcEncBlocks, cbcDecBlocks, hwf.D_E k _ hk hl hok, xorBytes_cancel x c (by rw [hx, hc]),
      ih hE fun y hy => h y (List.mem_cons_of_mem _ hy)]

/-- Encrypting CBC blocks that were decrypted from the same chaining value. -/
theorem cbcEnc_cbcDec_blocks (hok : cfg.keyOK k = true) {c : Bytes} {ys : List Bytes} (hc : c.length = cfg.blk)
    (h : AllBlocks cfg ys) : cbcEncBlocks cfg k c (cbcDecBlocks cfg k c ys) = ys := by
  induction ys generalizing c with
  | nil => rfl
  | cons y ys ih =>
    have hy := h y List.mem_cons_self
    have hD := hwf.D_length k y hk hy
    have e : cfg.E k (xorBytes (xorBytes (cfg.D k y) c) c) = y := by
      rw [xorBytes_cancel _ _ (by rw [hD, hc]), hwf.E_D k y hk hy hok]
    rw [cbcDecBlocks, cbcEncBlocks, e, ih hy fun z hz => h z (List.mem_cons_of_mem _ hz)]

end Whole

/-! ### The shell's operands -/

theorem length_operand (b : Block) : b.operand.length = b.len.toNat := by simp [Block.operand, Memory.length_slice]

theorem length_keyOperand (hwf : cfg.WF) (b : Block) : (b.keyOperand cfg).length = cfg.klen := by
  simp [Block.keyOperand, hwf.klen_le]

/-- `KV` spelled out (10_state.md R43). -/
theorem keyComplete_iff (b : Block) :
    b.keyComplete cfg = true ↔ ∀ i, (h : i < 64) → i < cfg.klen → b.kw[i] = true := by
  simp only [Block.keyComplete, List.all_eq_true, id]
  constructor
  · intro h i hi hk
    apply h
    rw [List.mem_take_iff_getElem]
    exact ⟨i, by simp; omega, by simp⟩
  · intro h x hx
    rw [List.mem_take_iff_getElem] at hx
    obtain ⟨i, hi, rfl⟩ := hx
    simp at hi
    simpa using h i (by omega) (by omega)

/-- An empty key store is never complete, since `KLEN >= 1`. -/
theorem keyComplete_clear (hwf : cfg.WF) (b : Block) (hb : b.kw = Vector.replicate 64 false) :
    b.keyComplete cfg = false := by
  rw [Bool.eq_false_iff]
  intro h
  have := (keyComplete_iff b).mp h 0 (by omega) hwf.klen_pos
  simp [hb] at this

/-- What `CR.ENCRYPT` can do to the block: fail with its first failing check, or deliver the ciphertext. -/
theorem crEncrypt_cases (b : Block) :
    (∃ c, b.encryptCause cfg = some c ∧ b.crEncrypt cfg = b.raiseCryptoError c) ∨
    (b.encryptCause cfg = none ∧ b.crEncrypt cfg = b.deliver (b.ciphertext cfg) (b.len.toNat + cfg.npad)) := by
  unfold Block.crEncrypt
  cases h : b.encryptCause cfg with
  | some c => exact .inl ⟨c, rfl, rfl⟩
  | none => exact .inr ⟨rfl, rfl⟩

/-- What `CR.DECRYPT` can do to the block. -/
theorem crDecrypt_cases (b : Block) :
    (∃ c, b.decryptCause cfg = some c ∧ b.crDecrypt cfg = b.raiseCryptoError c) ∨
    (b.decryptCause cfg = none ∧ b.crDecrypt cfg = b.deliver (b.paddedPlaintext cfg) (b.len.toNat - cfg.npad)) := by
  unfold Block.crDecrypt
  cases h : b.decryptCause cfg with
  | some c => exact .inl ⟨c, rfl, rfl⟩
  | none => exact .inr ⟨rfl, rfl⟩

theorem plainMalformed_iff (n : Nat) : plainMalformed cfg n = true ↔ (n + cfg.npad) % cfg.blk ≠ 0 := by
  simp [plainMalformed]

theorem cipherMalformed_iff (n : Nat) : cipherMalformed cfg n = true ↔ n % cfg.blk ≠ 0 ∨ n < cfg.npad := by
  simp [cipherMalformed]

/-- R154 spelled out: some key byte is unwritten, or the cipher rejects the key. -/
theorem keyRejected_iff (b : Block) : b.keyRejected cfg = true ↔
    (∃ j, ∃ h : j < 64, j < cfg.klen ∧ b.kw[j] = false) ∨ cfg.keyOK (b.keyOperand cfg) = false := by
  simp only [Block.keyRejected, Bool.or_eq_true, Bool.not_eq_true']
  have : b.keyComplete cfg = false ↔ ∃ j, ∃ h : j < 64, j < cfg.klen ∧ b.kw[j] = false := by
    rw [← Bool.not_eq_true, keyComplete_iff]
    simp
  rw [this]

theorem keyRejected_false_iff (b : Block) : b.keyRejected cfg = false ↔
    (∀ i, (h : i < 64) → i < cfg.klen → b.kw[i] = true) ∧ cfg.keyOK (b.keyOperand cfg) = true := by
  rw [← keyComplete_iff]
  simp [Block.keyRejected]

theorem encryptCause_none_iff (b : Block) : b.encryptCause cfg = none ↔ b.EncryptReady cfg := by
  have h1 := plainMalformed_iff (cfg := cfg) b.len.toNat
  have h3 := keyRejected_false_iff (cfg := cfg) b
  unfold Block.encryptCause
  constructor
  · intro h
    split at h
    · cases h
    · split at h
      · cases h
      · split at h
        · cases h
        · next n1 n2 n3 =>
          have := h3.mp (by simpa using n3)
          exact ⟨by_contra fun hc => n1 (h1.mpr hc), by omega, this.1, this.2⟩
  · rintro ⟨r1, r2, r3, r4⟩
    rw [if_neg (fun hc => h1.mp hc r1), if_neg (by omega), h3.mpr ⟨r3, r4⟩]
    rfl

theorem decryptCause_none_iff (b : Block) : b.decryptCause cfg = none ↔ b.DecryptReady cfg := by
  have h1 := cipherMalformed_iff (cfg := cfg) b.len.toNat
  have h3 := keyRejected_false_iff (cfg := cfg) b
  unfold Block.decryptCause
  constructor
  · intro h
    split at h
    · cases h
    · split at h
      · cases h
      · next n1 n3 =>
        have := h3.mp (by simpa using n3)
        have n1' := mt h1.mpr n1
        exact ⟨by_contra fun hc => n1' (.inl hc), by omega, this.1, this.2⟩
  · rintro ⟨r1, r2, r3, r4⟩
    rw [if_neg (fun hc => by rcases h1.mp hc with hc | hc; exact hc r1; omega), h3.mpr ⟨r3, r4⟩]
    rfl

end Machine

end Sys2Proof
end

