-- ==== Sys2Proof/Laws/PerInstr.lean ====
section
/-! SUPPORT. What holds of every constructor of `Instr`, one lemma each. -/

namespace Sys2Proof.Laws

/-- A command is well formed, its byte decodes to it, and so does its row's word of the opcode table
(30_encoding.md R71, R72). -/
def Encoding.Statement (i : Instr) : Prop :=
  i.wf = true ∧ decode (encode i) = .command i ∧ decodeTableWord 8 (encode i).toNat = some i

theorem Encoding.csCompute : Encoding.Statement .csCompute := ⟨rfl, by decide, by decide⟩

theorem Encoding.csValidate : Encoding.Statement .csValidate := ⟨rfl, by decide, by decide⟩

theorem Encoding.crEncrypt : Encoding.Statement .crEncrypt := ⟨rfl, by decide, by decide⟩

theorem Encoding.crDecrypt : Encoding.Statement .crDecrypt := ⟨rfl, by decide, by decide⟩

theorem Encoding.srst : Encoding.Statement .srst := ⟨rfl, by decide, by decide⟩

end Sys2Proof.Laws
end

