-- ==== Sys2Proof/Laws/Step.lean ====
section
/-! SUPPORT. Commands and steps: each is a function of the block, so one lemma says all that a step can do. -/

namespace Sys2Proof.Machine

/-- Every command acts on the block alone and completes. -/
theorem exec_eq (i : Instr) (s : State) : exec i s = .next (s.withBlock (s.block.execute Config.cfg i)) := by
  cases i <;> rfl

/-- Every command byte acts on the block alone and completes. -/
theorem command_eq (v : Byte) (s : State) : command v s = .next (s.withBlock (s.block.trigger Config.cfg v)) := by
  unfold command Block.trigger
  cases decode v with
  | command i => exact exec_eq i s
  | illegal _ => rfl

/-- All that an action of the host can do. -/
theorem act_eq (x : HostAction) (s : State) :
    act x s = .next { s with block := (s.block.transact Config.cfg x).1,
                             reads := s.reads ++ (s.block.transact Config.cfg x).2.toList } := by
  cases x with
  | write a v =>
    by_cases h : a = 0x000
    · subst h
      simp [act, hostWrite, command_eq, Block.transact, State.withBlock]
    · simp only [act, hostWrite, Block.transact, if_neg h, Option.toList_none, List.append_nil, State.withBlock]
  | read a => simp [act, hostRead, Block.transact]
  | reset => simp [act, hostReset, Block.transact, State.withBlock]

theorem step_nil (s : State) (h : s.script = []) : step s = .next s := by simp [step, h]

theorem step_cons (s : State) (x : HostAction) (rest : List HostAction) (h : s.script = x :: rest) :
    step s = act x { s with script := rest } := by simp [step, h]

/-- The five commands and no other byte (30_encoding.md R72, R74). -/
theorem decode_cases (v : Byte) :
    (v = 0x01 ∧ decode v = .command .csCompute) ∨ (v = 0x02 ∧ decode v = .command .csValidate) ∨
    (v = 0x10 ∧ decode v = .command .crEncrypt) ∨ (v = 0x11 ∧ decode v = .command .crDecrypt) ∨
    (v = 0xFF ∧ decode v = .command .srst) ∨
    ((v ≠ 0x01 ∧ v ≠ 0x02 ∧ v ≠ 0x10 ∧ v ≠ 0x11 ∧ v ≠ 0xFF) ∧ decode v = .illegal v) := by
  revert v; decide

/-! ### The canonical form of `BUF` -/

theorem wf_execute {cfg : Cfg} {b : Block} (h : b.buf.wf = true) (i : Instr) : (b.execute cfg i).buf.wf = true := by
  cases i with
  | csCompute => exact h
  | csValidate => exact h
  | crEncrypt =>
    rcases crEncrypt_cases (cfg := cfg) b with ⟨c, -, e⟩ | ⟨-, e⟩
    · simpa [Block.execute, e] using h
    · simpa [Block.execute, e] using Memory.wf_writeAll h 0 _
  | crDecrypt =>
    rcases crDecrypt_cases (cfg := cfg) b with ⟨c, -, e⟩ | ⟨-, e⟩
    · simpa [Block.execute, e] using h
    · simpa [Block.execute, e] using Memory.wf_writeAll h 0 _
  | srst => rfl

theorem wf_hostStore {cfg : Cfg} {b : Block} (h : b.buf.wf = true) (a : HostAddr) (v : Byte) :
    (b.hostStore cfg a v).buf.wf = true := by
  unfold Block.hostStore
  split
  · next r _ => cases r <;> first | exact h | exact Memory.wf_write h _ v
  · exact h

end Sys2Proof.Machine
end

