-- ==== Sys2Proof/Laws/Port.lean ====
section
/-! SUPPORT. The address map: every address is in exactly one row (20_memory.md R51). -/

namespace Sys2Proof.Machine

variable {cfg : Cfg}

/-- A window's offset is inside the window and below the configured size. -/
def RegInMap (cfg : Cfg) : Reg → Prop
  | .key i => i < cfg.klen ∧ i < 64
  | .iv0 i => i < cfg.blk ∧ i < 64
  | .buf i => i < 256
  | _ => True

theorem controlReg_some {n : Nat} {r : Reg} (h : controlReg n = some r) : n = regAddr r ∧ RegInMap cfg r := by
  unfold controlReg at h
  split at h <;> cases h <;> exact ⟨rfl, trivial⟩

theorem controlReg_none {n : Nat} (h : controlReg n = none) : (0x005 ≤ n ∧ n ≤ 0x007) ∨ 0x00E ≤ n := by
  by_cases hn : n < 0x00E
  · revert h
    have : ∀ m < 0x00E, controlReg m = none → 0x005 ≤ m ∧ m ≤ 0x007 := by decide
    exact fun h => .inl (this n hn h)
  · exact .inr (by omega)

/-- The row an address is found in is the row that has the address. -/
theorem regAtNat_some {n : Nat} {r : Reg} (hn : n < 512) (h : regAtNat cfg n = some r) :
    n = regAddr r ∧ RegInMap cfg r := by
  unfold regAtNat at h
  split at h
  · exact controlReg_some h
  · split at h
    · split at h
      · cases h; exact ⟨by simp only [regAddr]; omega, by assumption, by omega⟩
      · cases h
    · split at h
      · split at h
        · cases h; exact ⟨by simp only [regAddr]; omega, by assumption, by omega⟩
        · cases h
      · split at h
        · cases h
        · cases h; exact ⟨by simp only [regAddr]; omega, by simp only [RegInMap]; omega⟩

theorem regAt_some {a : HostAddr} {r : Reg} (h : regAt cfg a = some r) : a.toNat = regAddr r ∧ RegInMap cfg r :=
  regAtNat_some a.isLt h

theorem regAtNat_key {i : Nat} (h : i < cfg.klen) (h64 : i < 64) : regAtNat cfg (0x040 + i) = some (.key i) := by
  rw [regAtNat, if_neg (by omega), if_pos (by omega), show 0x040 + i - 0x040 = i by omega, if_pos h]

theorem regAtNat_iv0 {i : Nat} (h : i < cfg.blk) (h64 : i < 64) : regAtNat cfg (0x080 + i) = some (.iv0 i) := by
  rw [regAtNat, if_neg (by omega), if_neg (by omega), if_pos (by omega), show 0x080 + i - 0x080 = i by omega, if_pos h]

theorem regAtNat_buf (i : Nat) : regAtNat cfg (0x100 + i) = some (.buf i) := by
  rw [regAtNat, if_neg (by omega), if_neg (by omega), if_neg (by omega), if_neg (by omega),
    show 0x100 + i - 0x100 = i by omega]

/-- An address is in a named row, or it is reserved. -/
theorem regAtNat_none {n : Nat} (h : regAtNat cfg n = none) :
    (0x005 ≤ n ∧ n ≤ 0x007) ∨ (0x00E ≤ n ∧ n ≤ 0x03F) ∨ (0x040 + cfg.klen ≤ n ∧ n ≤ 0x07F) ∨
    (0x080 + cfg.blk ≤ n ∧ n ≤ 0x0BF) ∨ (0x0C0 ≤ n ∧ n ≤ 0x0FF) := by
  unfold regAtNat at h
  split at h
  · rcases controlReg_none h with h | h <;> omega
  · split at h
    · split at h
      · cases h
      · omega
    · split at h
      · split at h
        · cases h
        · omega
      · split at h
        · omega
        · cases h

/-- The named row with this address is found at it. -/
theorem regAtNat_regAddr {r : Reg} (h : RegInMap cfg r) : regAtNat cfg (regAddr r) = some r := by
  cases r with
  | key i => exact regAtNat_key h.1 h.2
  | iv0 i => exact regAtNat_iv0 h.1 h.2
  | buf i => exact regAtNat_buf i
  | _ => rfl

/-- Only the named rows' addresses start anything: `CMD` is address 0. -/
theorem regAt_cmd {a : HostAddr} (h : regAt cfg a = some .cmd) : a = 0x000 := by
  have := (regAt_some h).1
  apply BitVec.eq_of_toNat_eq
  simpa [regAddr] using this

end Sys2Proof.Machine
end

