-- ==== Sys2Proof/Tests/Slice0.lean ====
section
/-! SUPPORT. The model's own tests. Expected results come from the spec: the encodings of 30_encoding.md R72, the
vectors T1 to T120 of 95_test_vectors.md, and the tables of the rules a test names. After them, for each statement
with hypotheses, a named witness that meets them. -/

namespace Sys2Proof.Tests

open Sys2Proof.Machine

/-! ### The TOY cipher (95_test_vectors.md section 3) -/

def toyE (n : Nat) (k b : Bytes) : Bytes := (List.range n).map fun i => b.getD ((i + 1) % n) 0 + k.getD i 0

def toyD (n : Nat) (k c : Bytes) : Bytes :=
  (List.range n).map fun j => c.getD ((j + n - 1) % n) 0 - k.getD ((j + n - 1) % n) 0

/-- TOY with `BLK = KLEN = n`. -/
def toy (n : Nat) (mode : Mode) (npad : Nat) (padByte : Byte) (iv0 : Bytes) : Cfg where
  blk := n
  klen := n
  keyOK k := k.any (· != 0)
  E := toyE n
  D := toyD n
  mode := mode
  iv0 := iv0
  npad := npad
  padByte := padByte

/-- The common configuration of sections 5 and 7. -/
def toy4 : Cfg := toy 4 .cbc 2 0x00 [0, 0, 0, 0]

/-- The same with `NPAD = 0`, in each mode. -/
def toy4n (mode : Mode) : Cfg := toy 4 mode 0 0x00 [0, 0, 0, 0]

def k4 : Bytes := [0x10, 0x20, 0x30, 0x40]

/-- A block with an operand and a key loaded, in the state reset left otherwise. -/
def loaded (operand key : Bytes) : Block :=
  { Block.reset with
    buf := Memory.writeAll [] 0 operand
    len := BitVec.ofNat 8 operand.length
    key := Vector.ofFn fun i => key.getD i 0x00
    kw := Vector.ofFn fun i => decide (i.val < key.length) }

/-- The literal frame T1. -/
def fixture : Bytes :=
  [0xFC, 0x62, 0x01, 0x30, 0x10, 0x02, 0x00, 0x00, 0x01, 0x0B, 0x19, 0x00, 0x01, 0x00, 0x00, 0x85, 0xAD, 0x28,
   0x00, 0x00, 0x00, 0xDB]

/-- The TOY cipher is well formed at block size 4 (section 3: `cipher_inverse` holds for every key). -/
theorem toy_wf (mode : Mode) (npad : Nat) (padByte : Byte) (iv0 : Bytes) (hn : npad < 4) (hi : iv0.length = 4) :
    (toy 4 mode npad padByte iv0).WF := by
  have four : ∀ l : Bytes, l.length = 4 → ∃ a b c d, l = [a, b, c, d] := by
    intro l h
    match l, h with
    | [a, b, c, d], _ => exact ⟨a, b, c, d, rfl⟩
  refine ⟨by simp [OpenParams.sized, toy, hn, hi], ?_, ?_, ?_, ?_⟩
  · intro k b _ _; simp [toy, toyE]
  · intro k b _ _; simp [toy, toyD]
  · intro k b hk hb _
    obtain ⟨p, q, r, s, rfl⟩ := four k hk
    obtain ⟨w, x, y, z, rfl⟩ := four b hb
    simp [toy, toyE, toyD, List.range_succ]
  · intro k b hk hb _
    obtain ⟨p, q, r, s, rfl⟩ := four k hk
    obtain ⟨w, x, y, z, rfl⟩ := four b hb
    simp [toy, toyE, toyD, List.range_succ]

/-! ### Decoding: the words of R72, bit by bit, and illegal bytes (R74) -/

theorem test_decode_cs_compute : decode 0b00000001 = .command .csCompute := by decide
theorem test_decode_cs_validate : decode 0b00000010 = .command .csValidate := by decide
theorem test_decode_cr_encrypt : decode 0b00010000 = .command .crEncrypt := by decide
theorem test_decode_cr_decrypt : decode 0b00010001 = .command .crDecrypt := by decide
theorem test_decode_srst : decode 0b11111111 = .command .srst := by decide
theorem test_decode_zero_illegal : decode 0x00 = .illegal 0x00 := by decide
theorem test_decode_0x12_illegal : decode 0x12 = .illegal 0x12 := by decide
theorem test_table_word : decodeTableWord 8 0x11 = some .crDecrypt ∧ decodeTableWord 8 0xF1 = none := by decide
theorem test_no_overlap : opcodeMap.Pairwise fun r q => r.pattern &&& q.mask ≠ q.pattern := by decide

/-! ### Well-formedness: each check refuses an ill-formed term -/

theorem test_instr_wf : Instr.srst.wf = true := by decide
theorem test_loc_num_refused : (Loc.num 512).wf = false ∧ (Loc.num 511).wf = true := by decide
theorem test_key_offset_refused : (Reg.key 64).wf = false ∧ (Reg.key 63).wf = true := by decide
theorem test_iv0_offset_refused : (Reg.iv0 64).wf = false := by decide
theorem test_buf_offset_refused : (Reg.buf 256).wf = false ∧ (Reg.buf 255).wf = true := by decide
theorem test_long_load_refused : (Line.load (List.replicate 256 0x00)).wf = false := by
  rw [Line.wf, List.length_replicate]; rfl
theorem test_long_key_refused : (Line.key (List.replicate 65 0x00)).wf = false := by decide
theorem test_long_dump_refused : (Line.dump 257).wf = false := by decide
theorem test_wr_refused : (Line.wr (.num 512) 0x00).wf = false := by decide
theorem test_rd_refused : (Line.rd (.reg (.buf 256))).wf = false := by decide
theorem test_expect_refused : (Line.expect (.num 600) 0x00).wf = false := by decide
theorem test_cfg_sized : toy4.sized = true := by decide
theorem test_cfg_blk_refused : (toy 0 .cbc 0 0 []).sized = false := by decide
theorem test_cfg_blk65_refused : (toy 65 .ecb 0 0 (List.replicate 65 0)).sized = false := by decide
theorem test_cfg_klen_refused :
    { toy4.toOpenParams with klen := 0 }.sized = false ∧ { toy4.toOpenParams with klen := 65 }.sized = false := by decide
theorem test_cfg_npad_refused : (toy 4 .cbc 4 0 [0, 0, 0, 0]).sized = false := by decide
theorem test_cfg_iv0_refused : (toy 4 .cbc 0 0 [0, 0, 0]).sized = false := by decide

/-! ### The checksum functions (sections 1 and 2) -/

theorem test_T1_compute : csCompute toy4 (fixture.take 21) = 0xDB := by decide
theorem test_T1_sum : sum8 fixture = 0xFC := by decide
theorem test_T13_borrow : csCompute toy4 [0xFD] = 0xFF := by decide
theorem test_T16_wrap : csCompute toy4 [0x80, 0x80] = 0xFC := by decide
theorem test_T18_bias_zero : csCompute { toy4 with bias := 0x00 } [1, 2, 3, 4] = 0xF6 := by decide
theorem test_T38_fixture_valid : csValidate toy4 fixture = true := by decide
theorem test_T39_corrupt_invalid : csValidate toy4 (fixture.set 9 0x0F) = false := by decide
theorem test_T30_empty_invalid : csValidate { toy4 with bias := 0x00 } [] = false := by decide
theorem test_T45_alt : csAlt [1, 2, 3, 4] = 0xF7 := by decide

/-! ### The crypto functions (section 4) -/

theorem test_T50_E : toy4.E k4 [1, 2, 3, 4] = [0x12, 0x23, 0x34, 0x41] := by decide
theorem test_T60_ecb : crEncrypt (toy4n .ecb) [1, 2, 3, 4, 5, 6, 7, 8] k4 =
    .ok [0x12, 0x23, 0x34, 0x41, 0x16, 0x27, 0x38, 0x45] := by decide
theorem test_T68_cbc_iv : crEncrypt (toy 4 .cbc 0 0 [0xA0, 0xA1, 0xA2, 0xA3]) [1, 2, 3, 4, 5, 6, 7, 8] k4 =
    .ok [0xB3, 0xC1, 0xD7, 0xE1, 0xD7, 0xF0, 0x19, 0xF6] := by decide
theorem test_T67_padbyte : crEncrypt (toy 4 .cbc 2 0xEE [0, 0, 0, 0]) [1, 2, 3, 4, 5, 6] k4 =
    .ok [0x12, 0x23, 0x34, 0x41, 0x35, 0xFA, 0xDF, 0x57] := by decide
theorem test_T82_length_first : crEncrypt (toy4n .cbc) [1, 2, 3, 4, 5] [0, 0, 0, 0] = .err .length := by decide
theorem test_T83_short_key : crEncrypt (toy4n .cbc) [1, 2, 3, 4] [0x10, 0x20, 0x30] = .err .key := by decide
theorem test_T86_below_padding : crDecrypt toy4 [] k4 = .err .length := by decide
theorem test_T89_padding_unchecked : crDecrypt toy4 [9, 8, 7, 6] k4 = .ok [0xC6, 0xF9] := by decide
theorem test_T90_reencrypt : crEncrypt toy4 [0xC6, 0xF9] k4 = .ok [9, 0x20, 0x30, 6] := by decide
theorem test_T96_fixture : crEncrypt (toy 16 .cbc 10 0 (List.replicate 16 0)) fixture
    [1, 2, 3, 4, 5, 6, 7, 8, 9, 10, 11, 12, 13, 14, 15, 16] =
    .ok [0x63, 0x03, 0x33, 0x14, 0x07, 0x06, 0x07, 0x09, 0x14, 0x23, 0x0B, 0x0D, 0x0D, 0x0E, 0x94, 0x0C, 0x2C, 0x35,
      0x17, 0x0B, 0xE2, 0x0D, 0x10, 0x1C, 0x2C, 0x15, 0x18, 0x19, 0x1B, 0xA2, 0x1B, 0xDE] := by decide

/-! ### The commands (sections 5 and 7) -/

theorem test_T109_compute_empty : ((Block.reset).csCompute toy4).res = 0xFC := by decide
theorem test_P1_validate : ((loaded fixture []).csValidate toy4).res = 0x01 := by decide
theorem test_P2_status_after_compute : ((loaded (fixture.take 21) k4).csCompute toy4).status toy4 = 0x05 := by decide
theorem test_T66_encrypt : ((loaded [1, 2, 3, 4, 5, 6] k4).crEncrypt toy4).operand =
    [0x12, 0x23, 0x34, 0x41, 0x35, 0x54, 0x71, 0x57] := by decide
theorem test_P4_incomplete_key :
    ((loaded [1, 2, 3, 4, 5, 6] [0x10, 0x20, 0x30]).crEncrypt toy4).errc = 0x02 := by decide
theorem test_P4_rejected_key :
    ((loaded [1, 2, 3, 4, 5, 6] [0, 0, 0, 0]).crEncrypt toy4).errc = 0x02 := by decide
theorem test_P4_capacity : ({ loaded [] k4 with len := 0xFE }.crEncrypt toy4).errc = 0x03 := by decide
theorem test_P4_length_before_capacity : ({ loaded [] k4 with len := 0xFD }.crEncrypt toy4).errc = 0x01 := by decide
theorem test_T116_decrypt : ((loaded [0x12, 0x23, 0x34, 0x41, 0x35, 0x54, 0x71, 0x57] k4).crDecrypt toy4).len = 0x06 ∧
    ((loaded [0x12, 0x23, 0x34, 0x41, 0x35, 0x54, 0x71, 0x57] k4).crDecrypt toy4).buf.slice 0 8 =
      [1, 2, 3, 4, 5, 6, 0, 0] := by decide
theorem test_T117_decrypt_bad_length : ((loaded [1, 2, 3, 4, 5, 6] k4).crDecrypt toy4).errc = 0x01 := by decide
theorem test_T120_empty_encrypt : ((loaded [] k4).crEncrypt (toy4n .cbc)).status toy4 = 0x01 := by decide
theorem test_P4_srst : (loaded [1, 2, 3] k4).srst = Block.reset := rfl
theorem test_T113_illegal : (Block.reset.trigger toy4 0x00).errc = 0x7F ∧
    (Block.reset.trigger toy4 0x00).status toy4 = 0x03 := by decide
theorem test_P4_illegal_keeps_key : ((loaded [] k4).trigger toy4 0x03).status toy4 = 0x07 := by decide

/-! ### The machine's step -/

theorem test_step_compute : step (State.reset.withFetchWord 8 0x01) =
    .next (State.reset.withBlock { Block.reset with done := true, res := 0xFC }) := rfl
theorem test_step_runs_encrypt : step (State.reset.withFetchWord 8 0x10) = exec .crEncrypt State.reset := rfl

/-! ### The port (section 5) -/

theorem test_T101_config : [0x008, 0x009, 0x00A, 0x00B, 0x00C, 0x00D].map (Block.reset.hostRead toy4) =
    [0x01, 0x04, 0x04, 0x02, 0x00, 0xFC] := by decide
theorem test_T102_iv0 : [0x080, 0x083, 0x084].map (Block.reset.hostRead (toy 4 .cbc 0 0 [1, 2, 3, 4])) =
    [0x01, 0x04, 0x00] := by decide
theorem test_T103_key_unreadable : (Block.reset.hostStore toy4 0x040 0x55).hostRead toy4 0x040 = 0x00 ∧
    (Block.reset.hostStore toy4 0x040 0x55).key[0] = 0x55 := by decide
theorem test_T104_kv : (loaded [] k4).hostRead toy4 0x001 = 0x04 := by decide
theorem test_T105_reserved_key_slot : (loaded [] k4).hostStore toy4 0x044 0x99 = loaded [] k4 := by decide
theorem test_T106_read_only : [0x001, 0x002, 0x003, 0x00D, 0x080].map
    (fun a => Block.reset.hostStore toy4 a 0xFF) = List.replicate 5 Block.reset := by decide
theorem test_T107_reserved : (Block.reset.hostStore toy4 0x005 0xAA).hostRead toy4 0x005 = 0x00 := by decide
theorem test_T108_buf255 : (Block.reset.hostStore toy4 0x1FF 0x77).buf = [(255, 0x77)] := by decide
theorem test_buf_zero_canonical : (loaded [5] []).hostStore toy4 0x100 0x00 = { Block.reset with len := 1 } := by decide

/-! ### Scripts (30_encoding.md R80 to R82) -/

theorem test_expand_load : expandLine (.load [0xFC, 0x62]) =
    [.write 0x100 0xFC, .write 0x101 0x62, .write 0x004 0x02] := by decide
theorem test_trace_text : traceText (.write 0x10A 0x19) = ['W', ' ', '1', '0', 'A', ' ', '1', '9'] := by decide
theorem test_parse_wr : parseLine
    ['w', 'r', ' ', 'B', 'U', 'F', '+', '9', ',', ' ', '0', 'x', '0', 'F', ' ', ';', 'c'] =
    some [.wr (.reg (.buf 9)) 0x0F] := by decide
theorem test_parse_load : parseLine ['l', 'o', 'a', 'd', ' ', 'F', 'C', ' ', '6', '2'] =
    some [.load [0xFC, 0x62]] := by decide
theorem test_parse_out_of_map : parseLine ['r', 'd', ' ', '0', 'x', '2', '0', '0'] = none := by decide
theorem test_T114_not_sticky : scriptPasses toy4 Block.reset
    [.wr (.reg .cmd) 0x12, .expect (.reg .errc) 0x7F, .cmd .csCompute, .expect (.reg .errc) 0x00,
     .expect (.reg .status) 0x01] = true := by decide

/-! ### The frame (30_encoding.md R85, R87) -/

theorem test_R87_fields : (frameOfBytes fixture).map (fun f => (f.groupCode, f.payload.length, f.checksum)) =
    some (0x02, 15, 0xDB) := by decide
theorem test_short_frame : frameOfBytes (fixture.take 6) = none := by decide
theorem test_group_codes : groupOfCode 0x09 = some .autoMode ∧ groupOfCode 0x07 = none := by decide

/-! ### Witnesses: states and operands that meet the hypotheses of each statement that has any -/

/-- A host about to perform one action from the reset state. -/
def about (x : HostAction) : State := { State.reset with script := [x] }

theorem witness_StepRunsDecodedCommand :
    (about (.write 0x000 0x01)).script = .write 0x000 0x01 :: [] ∧ decode 0x01 = .command .csCompute ∧
    Instr.csCompute.wf = true := ⟨rfl, by decide, rfl⟩

theorem witness_IllegalCommandOnlyReports :
    ∀ v ∈ [0x00, 0x03, 0x0F, 0x12, (0xFE : Byte)], (about (.write 0x000 v)).script = .write 0x000 v :: [] ∧
      v ≠ 0x01 ∧ v ≠ 0x02 ∧ v ≠ 0x10 ∧ v ≠ 0x11 ∧ v ≠ 0xFF := by decide

/-- Every address, so every clause at its boundaries. -/
theorem witness_HostReadReturnsMappedByte (a : HostAddr) : (about (.read a)).script = .read a :: [] := rfl

/-- Every address but `CMD`; `KLEN >= 1` gives the key clause its first and last slot. -/
theorem witness_HostWriteChangesMappedLocation (a : HostAddr) (v : Byte) :
    (about (.write a v)).block.buf.wf = true ∧ (about (.write a v)).script = .write a v :: [] ∧
    0 < Config.cfg.klen ∧ Config.cfg.klen - 1 < Config.cfg.klen :=
  ⟨rfl, rfl, Config.cfg_wf.klen_pos, by have := Config.cfg_wf.klen_pos; omega⟩

theorem witness_RepeatedHostWriteIsIdempotent : Block.reset.buf.wf = true ∧ (0x1FF : HostAddr) ≠ 0x000 := by decide

theorem witness_IdleHostLeavesState : State.reset.script = [] := rfl

theorem witness_ResetClearsEverything : (about .reset).script = .reset :: [] := rfl

/-- `CS.*` have no hypothesis. Of the two cases on `NPAD`, which exclude each other, the built block is in one; a
well-formed configuration is in each, and there R242's codes result (TOY4 of 95_test_vectors.md, `NPAD` 2 and 0). -/
theorem witness_CommandsInResetState :
    (0 < Config.cfg.npad ∨ Config.cfg.npad = 0) ∧
    (toy4.WF ∧ 0 < toy4.npad ∧ (Block.reset.crEncrypt toy4).errc = 0x01 ∧ (Block.reset.crDecrypt toy4).errc = 0x01) ∧
    ((toy4n .cbc).WF ∧ (toy4n .cbc).npad = 0 ∧ (Block.reset.crEncrypt (toy4n .cbc)).errc = 0x02 ∧
      (Block.reset.crDecrypt (toy4n .cbc)).errc = 0x02) :=
  ⟨(Nat.eq_zero_or_pos _).symm, ⟨toy_wf _ _ _ _ (by decide) rfl, by decide, by decide, by decide⟩,
    ⟨toy_wf _ _ _ _ (by decide) rfl, by decide, by decide, by decide⟩⟩

theorem witness_StatusBitsAndKeyValid :
    ∀ i ∈ [Instr.crEncrypt, .crDecrypt], ∃ t, exec i State.reset = .next t := fun i _ => ⟨_, exec_eq i _⟩

theorem witness_ValidatesIffWholeSumIsBias : fixture ≠ [] := by decide

theorem witness_ExactlyOneTrailingByteValidates : csValidate toy4 (fixture.take 21 ++ [0xDB]) = true := by decide

theorem witness_SingleByteChangeIsDetected :
    csValidate toy4 fixture = true ∧ ∃ h : 21 < fixture.length, (0xDA : Byte) ≠ fixture[21] := by decide

theorem witness_ReorderingIsNotDetected : [1, 2].Perm [2, (1 : Byte)] ∧
    ([1, 3].map (BitVec.toNat (w := 8))).sum % 256 = ([2, 2].map (BitVec.toNat (w := 8))).sum % 256 := by decide

theorem witness_AlternativeChecksumAgreesOnMagic : toy4.bias = 0xFC := rfl

theorem witness_ChecksumCommandsFrame :
    ∀ i ∈ [Instr.csCompute, .csValidate], ∃ t, exec i State.reset = .next t := fun i _ => ⟨_, exec_eq i _⟩

theorem witness_FrameLayoutRoundTrip : ∃ f, frameOfBytes fixture = some f := ⟨_, rfl⟩

theorem witness_PaddingIsReversibleAndFixed : toy4.WF ∧
    crEncrypt toy4 [0xC6, 0xF9] k4 = .ok [9, 0x20, 0x30, 6] ∧ crDecrypt toy4 [9, 8, 7, 6] k4 = .ok [0xC6, 0xF9] :=
  ⟨toy_wf _ _ _ _ (by decide) rfl, by decide, by decide⟩

theorem witness_DecryptUndoesEncrypt : toy4.WF ∧ crEncrypt toy4 [0xC6, 0xF9] k4 = .ok [9, 0x20, 0x30, 6] :=
  ⟨toy_wf _ _ _ _ (by decide) rfl, by decide⟩

/-- With removed bytes that are not the padding, and with a ciphertext made by `cr_encrypt`. -/
theorem witness_ReencryptionHoldsUpToPadding : toy4.WF ∧ crDecrypt toy4 [9, 8, 7, 6] k4 = .ok [0xC6, 0xF9] ∧
    crDecrypt toy4 [9, 0x20, 0x30, 6] k4 = .ok [0xC6, 0xF9] := ⟨toy_wf _ _ _ _ (by decide) rfl, by decide, by decide⟩

/-- Whole blocks under an accepted key, with block indexes at both ends, for the statements on chaining. -/
theorem witness_chaining : toy4.WF ∧ k4.length = toy4.klen ∧ toy4.keyOK k4 = true ∧
    ((List.range 12).map (BitVec.ofNat 8)).length % toy4.blk = 0 ∧
    ∀ j ∈ [0, 2], j < ((List.range 12).map (BitVec.ofNat 8)).length / toy4.blk :=
  ⟨toy_wf _ _ _ _ (by decide) rfl, by decide, by decide, by decide, by decide⟩

theorem witness_CbcWorksByRecurrence_zeroIv : toy4.iv0 = List.replicate toy4.blk 0x00 := by decide

theorem witness_CbcDecryptionErrorStaysLocal :
    let x : Bytes := (List.range 12).map (BitVec.ofNat 8)
    (x.set 1 0xFF).length = x.length ∧ (∀ l < x.length / toy4.blk, l ≠ 0 → blockOf toy4 (x.set 1 0xFF) l = blockOf toy4 x l) ∧
    2 < x.length / toy4.blk ∧ x.set 1 0xFF ≠ x := by decide

theorem witness_CbcInitialValueReachesEveryBlock :
    [0xA0, 0xA1, 0xA2, (0xA3 : Byte)].length = toy4.blk ∧ [0xA0, 0xA1, 0xA2, (0xA3 : Byte)] ≠ toy4.iv0 := by decide

/-- A block that holds the key `k` and an operand of `n` zero bytes. -/
def holding (k : Bytes) (n : Nat) : Block :=
  { Block.reset with
    len := BitVec.ofNat 8 n
    key := Vector.ofFn fun i => k.getD i 0x00
    kw := Vector.replicate 64 true }

theorem keyOperand_holding (k : Bytes) (n : Nat) (hk : k.length = Config.cfg.klen) :
    (holding k n).keyOperand Config.cfg = k := by
  have hle := Config.cfg_wf.klen_le
  apply List.ext_getElem
  · rw [length_keyOperand Config.cfg_wf, hk]
  · intro j h1 h2
    simp [Block.keyOperand, holding, h2]

/-- The hypotheses of the statements about `CR.ENCRYPT` succeeding can be met, whatever the OPEN parameters. -/
theorem witness_EncryptReady : ∃ s : State, s.block.EncryptReady Config.cfg ∧ s.block.buf.wf = true := by
  obtain ⟨k, hk, hok⟩ := Config.cfg_accepts
  have hb := Config.cfg_wf.bounds
  have hl : (holding k (Config.cfg.blk - Config.cfg.npad)).len.toNat = Config.cfg.blk - Config.cfg.npad := by
    simp only [holding, BitVec.toNat_ofNat]; omega
  refine ⟨State.reset.withBlock (holding k (Config.cfg.blk - Config.cfg.npad)), ⟨?_, ?_, ?_, ?_⟩, rfl⟩
  · simp only [State.withBlock_block, hl]
    rw [show Config.cfg.blk - Config.cfg.npad + Config.cfg.npad = Config.cfg.blk by omega, Nat.mod_self]
  · simp only [State.withBlock_block, hl]; omega
  · intro i h _; simp [holding]
  · rw [State.withBlock_block, keyOperand_holding k _ hk]; exact hok

/-- The hypotheses of the statement about `CR.DECRYPT` succeeding can be met. -/
theorem witness_DecryptReady : ∃ s : State, s.block.DecryptReady Config.cfg ∧ s.block.buf.wf = true := by
  obtain ⟨k, hk, hok⟩ := Config.cfg_accepts
  have hb := Config.cfg_wf.bounds
  have hl : (holding k Config.cfg.blk).len.toNat = Config.cfg.blk := by
    simp only [holding, BitVec.toNat_ofNat]; omega
  refine ⟨State.reset.withBlock (holding k Config.cfg.blk), ⟨?_, ?_, ?_, ?_⟩, rfl⟩
  · simp only [State.withBlock_block, hl, Nat.mod_self]
  · simp only [State.withBlock_block, hl]; omega
  · intro i h _; simp [holding]
  · rw [State.withBlock_block, keyOperand_holding k _ hk]; exact hok

/-- One block for each clause: `CR.ENCRYPT` with codes 0x01, 0x03 and 0x02 (key incomplete, key rejected). -/
theorem witness_CryptoFailureReportsFirstCause_encrypt :
    (5 + toy4.npad) % toy4.blk ≠ 0 ∧ (254 + toy4.npad) % toy4.blk = 0 ∧ 255 < 254 + toy4.npad ∧
    (loaded [1, 2, 3, 4, 5, 6] [0x10, 0x20, 0x30]).kw[3] = false ∧
    toy4.keyOK ((loaded [1, 2, 3, 4, 5, 6] [0, 0, 0, 0]).keyOperand toy4) = false := by decide

/-- `CR.DECRYPT` with code 0x01 (not whole blocks; below the padding) and 0x02. -/
theorem witness_CryptoFailureReportsFirstCause_decrypt :
    6 % toy4.blk ≠ 0 ∧ 0 < toy4.npad ∧ 8 % toy4.blk = 0 ∧ toy4.npad ≤ 8 ∧
    (loaded [1, 2, 3, 4, 5, 6, 7, 8] []).kw[0] = false := by decide

/-- Under the OPEN parameters, a state from which each command ends with `ERR = 0` while its function is `ok`. -/
theorem witness_CryptoCommandsAgreeWithFunctions :
    (∃ s t : State, s.block.buf.wf = true ∧ exec .crEncrypt s = .next t ∧ t.block.err = false ∧
      ∃ c, crEncrypt Config.cfg s.block.operand (s.block.keyOperand Config.cfg) = .ok c) ∧
    (∃ s t : State, s.block.buf.wf = true ∧ exec .crDecrypt s = .next t ∧ t.block.err = false ∧
      ∃ p, crDecrypt Config.cfg s.block.operand (s.block.keyOperand Config.cfg) = .ok p) := by
  constructor
  · obtain ⟨s, hr, hb⟩ := witness_EncryptReady
    refine ⟨s, _, hb, exec_eq _ _, ?_, s.block.ciphertext Config.cfg, ?_⟩
    · rw [State.withBlock_block, Block.execute, Block.crEncrypt, (encryptCause_none_iff _).mpr hr]; rfl
    · simp [crEncrypt, Block.ciphertext, plainMalformed, accepted, length_operand, length_keyOperand Config.cfg_wf, hr.wholeBlocks,
        hr.keyAccepted]
  · obtain ⟨s, hr, hb⟩ := witness_DecryptReady
    refine ⟨s, _, hb, exec_eq _ _, ?_, unpad Config.cfg (s.block.paddedPlaintext Config.cfg), ?_⟩
    · rw [State.withBlock_block, Block.execute, Block.crDecrypt, (decryptCause_none_iff _).mpr hr]; rfl
    · simp [crDecrypt, Block.paddedPlaintext, cipherMalformed, accepted, length_operand, length_keyOperand Config.cfg_wf, hr.wholeBlocks,
        hr.keyAccepted, hr.holdsPadding]

theorem witness_CryptoCommandConsumesKey : ¬ isCryptoCommand 0x01 ∧ decode 0x01 ≠ .command .srst ∧
    ∃ t, command 0x01 State.reset = .next t := ⟨by unfold isCryptoCommand; decide, by decide, ⟨_, command_eq _ _⟩⟩

theorem witness_FailedCommandKeepsData : ∃ t, command 0x00 State.reset = .next t ∧ t.block.err = true := ⟨_, rfl, rfl⟩

theorem witness_KeyCannotBeRead : (loaded [] k4).SameButKey (loaded [] [1, 2, 3, 4]) ∧
    loaded [] k4 ≠ loaded [] [1, 2, 3, 4] ∧ 0 < Config.cfg.klen :=
  ⟨⟨rfl, rfl, rfl, rfl, rfl, by decide, rfl⟩, by decide, Config.cfg_wf.klen_pos⟩

theorem witness_KeyStaysHiddenOutsideCrypto :
    let s := (about (.read 0x001)).withBlock (loaded [] k4)
    let t := (about (.read 0x001)).withBlock (loaded [] [1, 2, 3, 4])
    s.block.SameButKey t.block ∧ s.script = t.script ∧ s.reads = t.reads ∧
    ∀ v rest, s.script = .write 0x000 v :: rest → ¬ isCryptoCommand v :=
  ⟨⟨rfl, rfl, rfl, rfl, rfl, by decide, rfl⟩, rfl, rfl, fun v rest h => by simp [about] at h⟩

theorem witness_ReadsNeverRevealKey :
    ∀ v, HostAction.write 0x000 v ∈ [HostAction.write 0x000 0x01, .read 0x040, .read 0x001] → ¬ isCryptoCommand v := by
  intro v hv
  have : v = 0x01 := by simpa using hv
  subst this
  unfold isCryptoCommand
  decide

theorem witness_CommandsIgnoreEarlierOutcomes :
    Block.reset.SameOperands { Block.reset with res := 0x55, err := true } := ⟨rfl, rfl, rfl, rfl⟩

theorem witness_BytesAboveLenAreNeverRead :
    let s := State.reset.withBlock { loaded [1, 2, 3, 4] k4 with len := 2 }
    let t := State.reset.withBlock { loaded [1, 2, 7, 8] k4 with len := 2 }
    s.block.buf.wf = true ∧ t.block.buf.wf = true ∧ t.block = { s.block with buf := t.block.buf } ∧
    s.block.buf ≠ t.block.buf ∧ ∀ j < 2, t.block.buf.read j = s.block.buf.read j := by decide

theorem witness_StepKeepsInv : ∃ s t, Inv s ∧ step s = .next t ∧ s.script ≠ [] := by
  refine ⟨(about (.write 0x104 0x55)).withBlock { Block.reset with done := true, len := 3 }, _, ?_, rfl, by simp [about]⟩
  refine ⟨rfl, .inl rfl, by simp [errNone, Block.reset], ?_, ?_, ?_⟩
  · intro h; cases h
  · intro i h _; simp [Block.reset]
  · intro i h _; simp [Block.reset]

theorem witness_StepMatchesTransaction : (about (.write 0x000 0x10)).script = .write 0x000 0x10 :: [] := rfl

theorem witness_LoadLeavesOperand : Block.reset.buf.wf = true ∧ (Line.load []).wf = true ∧
    (Line.load (List.replicate 255 0x55)).wf = true := ⟨rfl, rfl, by rw [Line.wf, List.length_replicate]; rfl⟩

theorem witness_KeyLineLoadsKey : toy4.WF ∧ k4.length = toy4.klen := ⟨toy_wf _ _ _ _ (by decide) rfl, rfl⟩

end Sys2Proof.Tests
end

section
/-! PROOFS of the family 10_state.md: the reset values (R41), `STATUS` and `KV` (R23, R43), what the checksum commands
leave unchanged (R42), what a command depends on (R38, R40), and the invariant (R23, R27, R28). -/

namespace Sys2Proof.Machine

section Rules

variable {cfg : Cfg} {b c : Block}

/-! ### What the shared operations do -/

/-- `CR.ENCRYPT` with a failing check. -/
theorem crEncrypt_of_cause {cause : CryptoCause} (h : b.encryptCause cfg = some cause) :
    b.crEncrypt cfg = b.raiseCryptoError cause := by
  simp only [Block.crEncrypt, h]

/-- `CR.ENCRYPT` with no failing check. -/
theorem crEncrypt_of_ready (h : b.encryptCause cfg = none) :
    b.crEncrypt cfg = b.deliver (b.ciphertext cfg) (b.len.toNat + cfg.npad) := by
  simp only [Block.crEncrypt, h]

/-- `CR.DECRYPT` with a failing check. -/
theorem crDecrypt_of_cause {cause : CryptoCause} (h : b.decryptCause cfg = some cause) :
    b.crDecrypt cfg = b.raiseCryptoError cause := by
  simp only [Block.crDecrypt, h]

/-- `CR.DECRYPT` with no failing check. -/
theorem crDecrypt_of_ready (h : b.decryptCause cfg = none) :
    b.crDecrypt cfg = b.deliver (b.paddedPlaintext cfg) (b.len.toNat - cfg.npad) := by
  simp only [Block.crDecrypt, h]

/-- A checksum command writes `RES` and reports success, and does nothing else (40_checksum.md R110, R111). -/
theorem execute_checksum_eq {i : Instr} (hi : i = .csCompute ∨ i = .csValidate) (cfg : Cfg) (b : Block) :
    ∃ r : Byte, b.execute cfg i = { b with res := r }.succeed := by
  rcases hi with rfl | rfl
  · exact ⟨_, rfl⟩
  · exact ⟨_, rfl⟩

/-- Whatever its outcome, a `CR.*` command leaves no key byte written (41_crypto.md R160). -/
theorem execute_crypto_kw {i : Instr} (hi : i = .crEncrypt ∨ i = .crDecrypt) (cfg : Cfg) (b : Block) :
    (b.execute cfg i).kw = Vector.replicate 64 false := by
  rcases hi with rfl | rfl
  · rcases crEncrypt_cases (cfg := cfg) b with ⟨cause, -, e⟩ | ⟨-, e⟩ <;> simp [Block.execute, e]
  · rcases crDecrypt_cases (cfg := cfg) b with ⟨cause, -, e⟩ | ⟨-, e⟩ <;> simp [Block.execute, e]

/-- All that a host write at an address other than `CMD` can do (20_memory.md R51, R53, R56, R57). -/
theorem hostStore_cases (cfg : Cfg) (b : Block) (a : HostAddr) (v : Byte) :
    b.hostStore cfg a v = b ∨ b.hostStore cfg a v = { b with len := v } ∨
    (∃ i, i < cfg.klen ∧ b.hostStore cfg a v = b.writeKey i v) ∨
    (∃ i, b.hostStore cfg a v = { b with buf := b.buf.write i v }) := by
  unfold Block.hostStore
  cases h : regAt cfg a with
  | none => exact .inl rfl
  | some r =>
    cases r with
    | len => exact .inr (.inl rfl)
    | key i =>
      have hi : i < cfg.klen ∧ i < 64 := (regAt_some h).2
      exact .inr (.inr (.inl ⟨i, hi.1, rfl⟩))
    | buf i => exact .inr (.inr (.inr ⟨i, rfl⟩))
    | _ => exact .inl rfl

/-- All that a step can do to the block: nothing, or the host's next action. -/
theorem step_block_cases {s t : State} (h : step s = .next t) :
    t.block = s.block ∨ ∃ x rest, s.script = x :: rest ∧ t.block = (s.block.transact Config.cfg x).1 := by
  cases hs : s.script with
  | nil =>
    rw [step_nil s hs] at h
    cases h
    exact .inl rfl
  | cons x rest =>
    rw [step_cons s x rest hs, act_eq] at h
    cases h
    exact .inr ⟨x, rest, rfl, rfl⟩

/-! ### The invariant (10_state.md R23, R27, R28) -/

/-- The reset values of 10_state.md R41 meet the invariant. -/
theorem Block.inv_reset (cfg : Cfg) : Block.reset.Inv cfg where
  bufCanonical := rfl
  errcLegal := .inl rfl
  errIffErrc := by simp [Block.reset, errNone]
  notDoneClear _ := ⟨rfl, rfl⟩
  unwrittenKeyZero i h _ := by simp [Block.reset]
  keyWindowEmpty i h _ := by simp [Block.reset]

/-- Every cause of a `CryptoError` has a code other than that of success (30_encoding.md R78). -/
theorem CryptoCause.code_legal (cause : CryptoCause) : legalErrc cause.code ∧ cause.code ≠ errNone := by
  cases cause with
  | length => exact ⟨.inr (.inl rfl), by decide⟩
  | key => exact ⟨.inr (.inr (.inl rfl)), by decide⟩
  | capacity => exact ⟨.inr (.inr (.inr (.inl rfl))), by decide⟩

namespace Block.Inv

/-- A command that has left the key store alone may report any outcome whose flag and code agree: `c` is the block
just before the report. -/
theorem report (h : b.Inv cfg) (hkey : c.key = b.key) (hkw : c.kw = b.kw) (hbuf : c.buf.wf = true) {e : Bool}
    {code : Byte} (hcode : legalErrc code) (he : e = true ↔ code ≠ errNone) : (c.report e code).Inv cfg where
  bufCanonical := hbuf
  errcLegal := hcode
  errIffErrc := he
  notDoneClear hd := by simp at hd
  unwrittenKeyZero := by simpa only [report_key, report_kw, hkey, hkw] using h.unwrittenKeyZero
  keyWindowEmpty := by simpa only [report_kw, hkw] using h.keyWindowEmpty

/-- Success may be reported with any result and any canonical `BUF`. -/
theorem succeed (h : b.Inv cfg) (hkey : c.key = b.key) (hkw : c.kw = b.kw) (hbuf : c.buf.wf = true) :
    c.succeed.Inv cfg :=
  h.report hkey hkw hbuf (.inl rfl) (by simp)

theorem clearKeyStore (h : b.Inv cfg) : b.clearKeyStore.Inv cfg where
  bufCanonical := h.bufCanonical
  errcLegal := h.errcLegal
  errIffErrc := h.errIffErrc
  notDoneClear := h.notDoneClear
  unwrittenKeyZero i hi _ := (b.clearKeyStore_get i hi).1
  keyWindowEmpty i hi _ := (b.clearKeyStore_get i hi).2

theorem illegalCommand (h : b.Inv cfg) : b.illegalCommand.Inv cfg :=
  h.report rfl rfl h.bufCanonical (.inr (.inr (.inr (.inr rfl)))) (by decide)

theorem raiseCryptoError (h : b.Inv cfg) (cause : CryptoCause) : (b.raiseCryptoError cause).Inv cfg :=
  have ⟨hlegal, hne⟩ := cause.code_legal
  (h.report rfl rfl h.bufCanonical hlegal (iff_of_true rfl hne)).clearKeyStore

theorem deliver (h : b.Inv cfg) (out : Bytes) (n : Nat) : (b.deliver out n).Inv cfg :=
  (h.succeed (c := { b with buf := b.buf.writeAll 0 out, len := BitVec.ofNat 8 n }) rfl rfl
    (Memory.wf_writeAll h.bufCanonical 0 out)).clearKeyStore

theorem execute (h : b.Inv cfg) (i : Instr) : (b.execute cfg i).Inv cfg := by
  cases i with
  | csCompute => exact h.succeed rfl rfl h.bufCanonical
  | csValidate => exact h.succeed rfl rfl h.bufCanonical
  | crEncrypt =>
    rcases crEncrypt_cases (cfg := cfg) b with ⟨cause, -, e⟩ | ⟨-, e⟩
    · simpa only [Block.execute, e] using h.raiseCryptoError cause
    · simpa only [Block.execute, e] using h.deliver _ _
  | crDecrypt =>
    rcases crDecrypt_cases (cfg := cfg) b with ⟨cause, -, e⟩ | ⟨-, e⟩
    · simpa only [Block.execute, e] using h.raiseCryptoError cause
    · simpa only [Block.execute, e] using h.deliver _ _
  | srst => exact Block.inv_reset cfg

theorem trigger (h : b.Inv cfg) (v : Byte) : (b.trigger cfg v).Inv cfg := by
  unfold Block.trigger
  cases decode v with
  | command i => exact h.execute i
  | illegal _ => exact h.illegalCommand

/-- A written key byte has its `KW` set, and lies below `KLEN`. -/
theorem writeKey (h : b.Inv cfg) {i : Nat} (hi : i < cfg.klen) (v : Byte) : (b.writeKey i v).Inv cfg where
  bufCanonical := h.bufCanonical
  errcLegal := h.errcLegal
  errIffErrc := h.errIffErrc
  notDoneClear := h.notDoneClear
  unwrittenKeyZero j hj hw := by
    by_cases hij : i = j
    · subst hij
      simp at hw
    · simp only [writeKey_key, writeKey_kw, Vector.getElem_setIfInBounds, if_neg hij] at hw ⊢
      exact h.unwrittenKeyZero j hj hw
  keyWindowEmpty j hj hk := by
    have hij : i ≠ j := by omega
    simp only [writeKey_kw, Vector.getElem_setIfInBounds, if_neg hij]
    exact h.keyWindowEmpty j hj hk

theorem hostStore (h : b.Inv cfg) (a : HostAddr) (v : Byte) : (b.hostStore cfg a v).Inv cfg := by
  rcases hostStore_cases cfg b a v with e | e | ⟨i, hi, e⟩ | ⟨i, e⟩
  · rwa [e]
  · rw [e]
    exact { h with }
  · rw [e]
    exact h.writeKey hi v
  · rw [e]
    exact { h with bufCanonical := Memory.wf_write h.bufCanonical i v }

theorem transact (h : b.Inv cfg) (x : HostAction) : (b.transact cfg x).1.Inv cfg := by
  cases x with
  | write a v =>
    simp only [Block.transact]
    split
    · exact h.trigger v
    · exact h.hostStore a v
  | read a => exact h
  | reset => exact Block.inv_reset cfg

end Block.Inv

/-! ### Reset (10_state.md R41) -/

/-- No key is valid after reset. -/
theorem keyComplete_reset (hwf : cfg.WF) : Block.reset.keyComplete cfg = false := keyComplete_clear hwf _ rfl

/-! ### `STATUS` and `KV` (10_state.md R23, R43) -/

/-- A flag at bit `k` of a byte sets that bit and no other. -/
theorem getLsbD_flagBit {k : Nat} (hk : k < 8) (f : Bool) (j : Nat) :
    (flagBit k f).getLsbD j = (f && decide (k = j)) := by
  cases f with
  | false => simp [flagBit]
  | true =>
    simp only [flagBit, if_true, BitVec.getLsbD_ofNat, Nat.testBit_two_pow, Bool.true_and, Bool.and_eq_right_iff_imp,
      decide_eq_true_eq]
    omega

/-- `STATUS` bit by bit. -/
theorem getLsbD_status (cfg : Cfg) (b : Block) (j : Nat) : (b.status cfg).getLsbD j =
    (b.done && decide (0 = j) || b.err && decide (1 = j) || b.keyComplete cfg && decide (2 = j)) := by
  simp [Block.status, BitVec.getLsbD_or, getLsbD_flagBit]

/-- `KV`, bit 2 of `STATUS`, says that the key store is complete. -/
theorem getLsbD_status_two (cfg : Cfg) (b : Block) : (b.status cfg).getLsbD 2 = b.keyComplete cfg := by
  rw [getLsbD_status]
  simp

/-! ### The frame of the checksum commands (10_state.md R42) -/

/-- A host read depends on the one register its address names. -/
theorem hostRead_congr {a : HostAddr} (h : ∀ r, a.toNat = regAddr r → b.readReg cfg r = c.readReg cfg r) :
    b.hostRead cfg a = c.hostRead cfg a := by
  unfold Block.hostRead
  cases hr : regAt cfg a with
  | none => rfl
  | some r => exact h r (regAt_some hr).1

/-- Writing the result and the outcome shows in no register but `STATUS`, `RES` and `ERRC`. -/
theorem readReg_report_res (cfg : Cfg) (b : Block) (v code : Byte) (e : Bool) {r : Reg} (hs : r ≠ .status)
    (hr : r ≠ .res) (he : r ≠ .errc) : ({ b with res := v }.report e code).readReg cfg r = b.readReg cfg r := by
  cases r with
  | status => exact absurd rfl hs
  | res => exact absurd rfl hr
  | errc => exact absurd rfl he
  | _ => rfl

/-! ### What a command depends on (10_state.md R38, R40) -/

namespace Block.SameOperands

variable (h : b.SameOperands c)
include h

theorem operand_eq : b.operand = c.operand := by simp only [Block.operand, h.len, h.buf]

theorem keyOperand_eq : b.keyOperand cfg = c.keyOperand cfg := by simp only [Block.keyOperand, h.key]

theorem keyRejected_eq : b.keyRejected cfg = c.keyRejected cfg := by
  simp only [Block.keyRejected, Block.keyComplete, h.kw, h.keyOperand_eq]

theorem encryptCause_eq : b.encryptCause cfg = c.encryptCause cfg := by
  simp only [Block.encryptCause, h.len, h.keyRejected_eq]

theorem decryptCause_eq : b.decryptCause cfg = c.decryptCause cfg := by
  simp only [Block.decryptCause, h.len, h.keyRejected_eq]

theorem ciphertext_eq : b.ciphertext cfg = c.ciphertext cfg := by
  simp only [Block.ciphertext, h.keyOperand_eq, h.operand_eq]

theorem paddedPlaintext_eq : b.paddedPlaintext cfg = c.paddedPlaintext cfg := by
  simp only [Block.paddedPlaintext, h.keyOperand_eq, h.operand_eq]

end Block.SameOperands

/-- The blocks `b'` and `c'` that one command made of `b` and `c` agree on the operands and the outcome, and on `RES`
unless the command left it alone in both. -/
structure Block.SameEffect (b c b' c' : Block) : Prop where
  operands : b'.SameOperands c'
  done : b'.done = c'.done
  err : b'.err = c'.err
  errc : b'.errc = c'.errc
  res : b'.res = c'.res ∨ (b'.res = b.res ∧ c'.res = c.res)

namespace Block.SameEffect

/-- Blocks equal after a command agree on everything. -/
theorem of_eq (b c b' : Block) : SameEffect b c b' b' := ⟨⟨rfl, rfl, rfl, rfl⟩, rfl, rfl, rfl, .inl rfl⟩

/-- The outcome a command reports is the same whatever the earlier one was. -/
theorem report (h : b.SameOperands c) (e : Bool) (code : Byte) :
    SameEffect b c (b.report e code) (c.report e code) :=
  ⟨⟨h.len, h.key, h.kw, h.buf⟩, rfl, rfl, rfl, .inr ⟨rfl, rfl⟩⟩

/-- So is the result that a checksum command writes. -/
theorem report_res (h : b.SameOperands c) (e : Bool) (code : Byte) {v w : Byte} (hvw : v = w) :
    SameEffect b c ({ b with res := v }.report e code) ({ c with res := w }.report e code) :=
  ⟨⟨h.len, h.key, h.kw, h.buf⟩, rfl, rfl, rfl, .inl hvw⟩

theorem raiseCryptoError (h : b.SameOperands c) (cause : CryptoCause) :
    SameEffect b c (b.raiseCryptoError cause) (c.raiseCryptoError cause) :=
  ⟨⟨h.len, rfl, rfl, h.buf⟩, rfl, rfl, rfl, .inr ⟨rfl, rfl⟩⟩

theorem deliver (h : b.SameOperands c) (out : Bytes) (n : Nat) :
    SameEffect b c (b.deliver out n) (c.deliver out n) :=
  ⟨⟨rfl, rfl, rfl, by simp only [deliver_buf, h.buf]⟩, rfl, rfl, rfl, .inr ⟨rfl, rfl⟩⟩

theorem crEncrypt (h : b.SameOperands c) : SameEffect b c (b.crEncrypt cfg) (c.crEncrypt cfg) := by
  cases hc : c.encryptCause cfg with
  | some cause =>
    rw [crEncrypt_of_cause hc, crEncrypt_of_cause (h.encryptCause_eq.trans hc)]
    exact raiseCryptoError h cause
  | none =>
    rw [crEncrypt_of_ready hc, crEncrypt_of_ready (h.encryptCause_eq.trans hc), h.ciphertext_eq, h.len]
    exact deliver h _ _

theorem crDecrypt (h : b.SameOperands c) : SameEffect b c (b.crDecrypt cfg) (c.crDecrypt cfg) := by
  cases hc : c.decryptCause cfg with
  | some cause =>
    rw [crDecrypt_of_cause hc, crDecrypt_of_cause (h.decryptCause_eq.trans hc)]
    exact raiseCryptoError h cause
  | none =>
    rw [crDecrypt_of_ready hc, crDecrypt_of_ready (h.decryptCause_eq.trans hc), h.paddedPlaintext_eq, h.len]
    exact deliver h _ _

theorem execute (h : b.SameOperands c) (i : Instr) : SameEffect b c (b.execute cfg i) (c.execute cfg i) := by
  cases i with
  | csCompute => exact report_res h false errNone (by rw [h.operand_eq])
  | csValidate => exact report_res h false errNone (by rw [h.operand_eq])
  | crEncrypt => exact crEncrypt h
  | crDecrypt => exact crDecrypt h
  | srst => exact of_eq b c Block.reset

theorem trigger (h : b.SameOperands c) (v : Byte) : SameEffect b c (b.trigger cfg v) (c.trigger cfg v) := by
  unfold Block.trigger
  cases decode v with
  | command i => exact execute h i
  | illegal _ => exact report h true errIllegalCmd

end Block.SameEffect

end Rules

/-! ### The obligations -/

/-- Settles O47: a step leaves the block alone or performs one host action, and every action keeps the invariant. -/
theorem stepKeepsInv : Obligations.StepKeepsInv := by
  intro s t hs hstep
  rcases step_block_cases hstep with e | ⟨x, rest, -, e⟩
  · simpa only [Inv, e] using hs
  · simpa only [Inv, e] using Block.Inv.transact hs x

/-- Settles O12: `STATUS` bit by bit, and a key store that reset or a `CR.*` command has emptied is not complete. -/
theorem statusBitsAndKeyValid : Obligations.StatusBitsAndKeyValid := by
  refine ⟨fun b => ⟨?_, ?_, ?_, fun k hk => ?_⟩, ?_, fun i s t hi ht => ?_⟩
  · rw [getLsbD_status]
    simp
  · rw [getLsbD_status]
    simp
  · rw [getLsbD_status_two, keyComplete_iff]
  · have hne : 0 ≠ k ∧ 1 ≠ k ∧ 2 ≠ k := by omega
    simp [getLsbD_status, hne]
  · rw [getLsbD_status_two]
    exact keyComplete_reset Config.cfg_wf
  · rw [exec_eq] at ht
    cases ht
    rw [getLsbD_status_two]
    exact keyComplete_clear Config.cfg_wf _ (execute_crypto_kw hi Config.cfg s.block)

/-- Settles O22: the command writes `RES` and the outcome, and a read at another address names another register. -/
theorem checksumCommandsFrame : Obligations.ChecksumCommandsFrame := by
  intro i s t hi ht
  obtain ⟨v, hv⟩ := execute_checksum_eq hi Config.cfg s.block
  rw [exec_eq, hv] at ht
  cases ht
  refine ⟨fun _ => rfl, rfl, rfl, rfl, rfl, rfl, fun a h1 h2 h3 => hostRead_congr fun r hr => ?_⟩
  apply readReg_report_res
  · rintro rfl
    exact h1 (BitVec.eq_of_toNat_eq hr)
  · rintro rfl
    exact h2 (BitVec.eq_of_toNat_eq hr)
  · rintro rfl
    exact h3 (BitVec.eq_of_toNat_eq hr)

/-- Settles O44: the checks, the outputs and so the effect of every command byte are functions of the operands. -/
theorem commandsIgnoreEarlierOutcomes : Obligations.CommandsIgnoreEarlierOutcomes := by
  intro v s t h
  obtain ⟨hops, hdone, herr, herrc, hres⟩ := Block.SameEffect.trigger (cfg := Config.cfg) h v
  exact ⟨_, _, command_eq v s, command_eq v t, hops, hdone, herr, herrc, hres⟩

/-- Settles O10: `SRST` and the reset input both end in `Block.reset`, whose `KV` is 0. -/
theorem resetClearsEverything : Obligations.ResetClearsEverything := by
  have hstatus : State.reset.block.status Config.cfg = 0x00 := by
    have hkv : State.reset.block.keyComplete Config.cfg = false := keyComplete_reset Config.cfg_wf
    rw [Block.status, hkv]
    rfl
  refine ⟨fun s => ⟨_, exec_eq .srst s, rfl⟩, fun s rest hs => ?_, rfl, rfl, hstatus, rfl, rfl, rfl, fun i hi => ?_,
    Memory.read_reset⟩
  · rw [step_cons s _ rest hs]
    rfl
  · exact Block.clearKeyStore_get Block.reset i hi

/-- Settles O46: the reset values of R41 meet each clause. -/
theorem resetMeetsInv : Obligations.ResetMeetsInv := Block.inv_reset Config.cfg

end Sys2Proof.Machine
end

section
/-! PROOFS of the family 20_memory.md: what a host read returns and a host write changes at each address (R51 to R57),
repeated writes (R64), and why the key cannot be read (R55). -/

namespace Sys2Proof.Machine

section Rules

variable {cfg : Cfg} {b c : Block} {a : HostAddr}

/-! ### Reads by address (20_memory.md R51, R52) -/

/-- At a named location's own address a read gives what that location reads as. -/
theorem hostRead_regAddr {r : Reg} (hr : RegInMap cfg r) (ha : a.toNat = regAddr r) :
    b.hostRead cfg a = b.readReg cfg r := by
  rw [Block.hostRead, regAt, ha, regAtNat_regAddr hr]

/-- An address of no named location is reserved and reads as 0x00 (R57). -/
theorem hostRead_reserved (h : ∀ r, RegInMap cfg r → a.toNat ≠ regAddr r) : b.hostRead cfg a = 0x00 := by
  unfold Block.hostRead
  cases hr : regAt cfg a with
  | none => rfl
  | some r => exact absurd (regAt_some hr).1 (h r (regAt_some hr).2)

/-- Where the reserved rows of the map are: no named location has an address in them. -/
theorem ne_regAddr_of_reserved {n : Nat} (hn : (0x005 ≤ n ∧ n ≤ 0x007) ∨ (0x00E ≤ n ∧ n ≤ 0x03F) ∨
    (0x040 + cfg.klen ≤ n ∧ n ≤ 0x07F) ∨ (0x080 + cfg.blk ≤ n ∧ n ≤ 0x0BF) ∨ (0x0C0 ≤ n ∧ n ≤ 0x0FF))
    (r : Reg) (hr : RegInMap cfg r) : n ≠ regAddr r := by
  cases r with
  | key i =>
    have hi : i < cfg.klen ∧ i < 64 := hr
    simp only [regAddr]
    omega
  | iv0 i =>
    have hi : i < cfg.blk ∧ i < 64 := hr
    simp only [regAddr]
    omega
  | _ =>
    simp only [regAddr]
    omega

/-- The whole key window reads as 0x00: the key bytes because they are write-only (R55), the rest as reserved. -/
theorem hostRead_keyWindow (ha : 0x040 ≤ a.toNat ∧ a.toNat ≤ 0x07F) : b.hostRead cfg a = 0x00 := by
  by_cases hk : a.toNat < 0x040 + cfg.klen
  · exact hostRead_regAddr (r := .key (a.toNat - 0x040)) ⟨by omega, by omega⟩ (by simp only [regAddr]; omega)
  · exact hostRead_reserved (ne_regAddr_of_reserved (by omega))

/-- A number below 256 is what the byte that holds it says. -/
theorem toNat_byte {n : Nat} (h : n < 256) : (BitVec.ofNat 8 n).toNat = n := by
  rw [BitVec.toNat_ofNat, Nat.mod_eq_of_lt h]

/-! ### Writes by address (20_memory.md R51, R53) -/

/-- At a named location's own address a write does what the location says. -/
theorem hostStore_regAddr {r : Reg} (hr : RegInMap cfg r) (ha : a.toNat = regAddr r) (v : Byte) :
    b.hostStore cfg a v = b.writeReg v r := by
  rw [Block.hostStore, regAt, ha, regAtNat_regAddr hr]

/-- Outside `LEN`, the key bytes and `BUF` a write is ignored (R56, R57). -/
theorem hostStore_ignored (hlen : a.toNat ≠ 0x004) (hkey : ¬ (0x040 ≤ a.toNat ∧ a.toNat < 0x040 + cfg.klen))
    (hbuf : ¬ 0x100 ≤ a.toNat) (v : Byte) : b.hostStore cfg a v = b := by
  unfold Block.hostStore
  cases h : regAt cfg a with
  | none => rfl
  | some r =>
    obtain ⟨ha, hr⟩ := regAt_some h
    cases r with
    | len => exact absurd ha hlen
    | key i =>
      have hi : i < cfg.klen ∧ i < 64 := hr
      simp only [regAddr] at ha
      omega
    | buf i =>
      simp only [regAddr] at ha
      omega
    | _ => rfl

/-- Inside the bounds the checked update of a vector is the update. -/
theorem setIfInBounds_eq_set {α : Type} {n i : Nat} (xs : Vector α n) (x : α) (h : i < n) :
    xs.setIfInBounds i x = xs.set i x := by
  ext j hj
  rw [Vector.getElem_setIfInBounds, Vector.getElem_set]

/-- A host write to an existing key byte, as an update inside the bounds. -/
theorem writeKey_eq_set {i : Nat} (h : i < 64) (v : Byte) :
    b.writeKey i v = { b with key := b.key.set i v, kw := b.kw.set i true } := by
  rw [Block.writeKey, setIfInBounds_eq_set b.key v h, setIfInBounds_eq_set b.kw true h]

/-- A host write at an address other than `CMD`, as an action of the block. -/
theorem transact_write (ha : a ≠ 0x000) (v : Byte) : b.transact cfg (.write a v) = (b.hostStore cfg a v, none) := by
  rw [Block.transact, if_neg ha]

/-- A step that writes at an address other than `CMD` stores the byte and does nothing else. -/
theorem step_write {s : State} {rest : List HostAction} {v : Byte} (hs : s.script = .write a v :: rest)
    (ha : a ≠ 0x000) :
    step s = .next { s with script := rest, block := s.block.hostStore Config.cfg a v } := by
  rw [step_cons s _ rest hs, act_eq, transact_write ha]
  simp

/-- A step that reads returns the byte to the host and does nothing else. -/
theorem step_read {s : State} {rest : List HostAction} (hs : s.script = .read a :: rest) :
    step s = .next { s with script := rest, reads := s.reads ++ [s.block.hostRead Config.cfg a] } := by
  rw [step_cons s _ rest hs]
  rfl

/-! ### Repeated writes (20_memory.md R64) -/

/-- Writing a byte of `BUF` twice is writing it once: both leave a canonical buffer that reads the same. -/
theorem Memory.write_write {m : Memory} (hm : m.wf = true) (i : Nat) (v : Byte) :
    (m.write i v).write i v = m.write i v := by
  have hm' : (m.write i v).wf = true := wf_write hm i v
  refine eq_of_read_eq (wf_write hm' i v) hm' fun j => ?_
  rw [read_write hm', read_write hm]
  split_ifs
  · rfl
  · rfl

theorem writeReg_writeReg (hb : b.buf.wf = true) (v : Byte) (r : Reg) :
    (b.writeReg v r).writeReg v r = b.writeReg v r := by
  cases r with
  | key i => simp only [Block.writeReg, Block.writeKey, Vector.setIfInBounds_setIfInBounds]
  | buf i => simp only [Block.writeReg, Memory.write_write hb]
  | _ => rfl

theorem hostStore_hostStore (hb : b.buf.wf = true) (a : HostAddr) (v : Byte) :
    (b.hostStore cfg a v).hostStore cfg a v = b.hostStore cfg a v := by
  unfold Block.hostStore
  cases regAt cfg a with
  | none => rfl
  | some r => exact writeReg_writeReg hb v r

/-! ### What does not depend on the key (20_memory.md R55) -/

namespace Block.SameButKey

theorem refl (b : Block) : b.SameButKey b := ⟨rfl, rfl, rfl, rfl, rfl, rfl, rfl⟩

variable (h : b.SameButKey c)
include h

theorem status_eq : b.status cfg = c.status cfg := by
  simp only [Block.status, Block.keyComplete, h.done, h.err, h.kw]

theorem operand_eq : b.operand = c.operand := by simp only [Block.operand, h.len, h.buf]

/-- No register's reading depends on the bytes of `KEY`: `KV`, the only trace of them, is computed from `KW`. -/
theorem readReg_eq (r : Reg) : b.readReg cfg r = c.readReg cfg r := by
  cases r with
  | status => exact h.status_eq
  | res => exact h.res
  | errc => exact h.errc
  | len => exact h.len
  | buf i => exact congrArg (Memory.read · i) h.buf
  | _ => rfl

theorem hostRead_eq (a : HostAddr) : b.hostRead cfg a = c.hostRead cfg a := hostRead_congr fun r _ => h.readReg_eq r

theorem report (e : Bool) (code : Byte) : (b.report e code).SameButKey (c.report e code) :=
  { h with done := rfl, err := rfl, errc := rfl }

theorem setRes {v w : Byte} (hvw : v = w) : { b with res := v }.SameButKey { c with res := w } :=
  { h with res := hvw }

theorem writeKey (i : Nat) (v : Byte) : (b.writeKey i v).SameButKey (c.writeKey i v) :=
  { h with kw := congrArg (·.setIfInBounds i true) h.kw }

theorem writeReg (v : Byte) (r : Reg) : (b.writeReg v r).SameButKey (c.writeReg v r) := by
  cases r with
  | len => exact { h with len := rfl }
  | key i => exact h.writeKey i v
  | buf i => exact { h with buf := congrArg (Memory.write · i v) h.buf }
  | _ => exact h

theorem hostStore (a : HostAddr) (v : Byte) : (b.hostStore cfg a v).SameButKey (c.hostStore cfg a v) := by
  unfold Block.hostStore
  cases regAt cfg a with
  | none => exact h
  | some r => exact h.writeReg v r

/-- The checksum commands see `KEY` no more than the host does, and `SRST` forgets it. -/
theorem execute {i : Instr} (henc : i ≠ .crEncrypt) (hdec : i ≠ .crDecrypt) :
    (b.execute cfg i).SameButKey (c.execute cfg i) := by
  cases i with
  | csCompute => exact (h.setRes (congrArg (Machine.csCompute cfg) h.operand_eq)).report false errNone
  | csValidate =>
    exact (h.setRes (congrArg (fun f => boolByte (Machine.csValidate cfg f)) h.operand_eq)).report false errNone
  | crEncrypt => exact absurd rfl henc
  | crDecrypt => exact absurd rfl hdec
  | srst => exact refl Block.reset

theorem trigger {v : Byte} (hv : ¬ isCryptoCommand v) : (b.trigger cfg v).SameButKey (c.trigger cfg v) := by
  unfold Block.trigger
  cases hd : decode v with
  | command i =>
    refine h.execute ?_ ?_
    · rintro rfl
      exact hv (.inl hd)
    · rintro rfl
      exact hv (.inr hd)
  | illegal _ => exact h.report true errIllegalCmd

/-- No action but a `CR.*` command makes the block or the byte returned depend on `KEY`. -/
theorem transact {x : HostAction} (hx : ∀ v, x = .write 0x000 v → ¬ isCryptoCommand v) :
    (b.transact cfg x).1.SameButKey (c.transact cfg x).1 ∧ (b.transact cfg x).2 = (c.transact cfg x).2 := by
  cases x with
  | write a v =>
    by_cases ha : a = 0x000
    · subst ha
      exact ⟨h.trigger (hx v rfl), rfl⟩
    · rw [transact_write ha, transact_write ha]
      exact ⟨h.hostStore a v, rfl⟩
  | read a => exact ⟨h, congrArg some (h.hostRead_eq a)⟩
  | reset => exact ⟨refl Block.reset, rfl⟩

end Block.SameButKey

end Rules

/-! ### The obligations -/

/-- Settles O42: an idle step changes nothing, and any other performs one host action of the kind that keeps `KEY`
hidden. -/
theorem keyStaysHiddenOutsideCrypto : Obligations.KeyStaysHiddenOutsideCrypto := by
  intro s t hblock hscript hreads hcmd
  cases hs : s.script with
  | nil =>
    have ht : t.script = [] := hscript ▸ hs
    exact ⟨s, t, step_nil s hs, step_nil t ht, hblock, hscript, hreads⟩
  | cons x rest =>
    have ht : t.script = x :: rest := hscript ▸ hs
    have ⟨hblock', hbyte⟩ := hblock.transact (cfg := Config.cfg) (x := x) fun v hx => hcmd v rest (hx ▸ hs)
    rw [step_cons s x rest hs, step_cons t x rest ht, act_eq, act_eq]
    exact ⟨_, _, rfl, rfl, hblock', rfl, by simp only [hreads, hbyte]⟩

/-- Settles O43, by induction on the script: each action keeps the two blocks equal but for `KEY` and returns them the
same byte. -/
theorem readsNeverRevealKey : Obligations.ReadsNeverRevealKey := by
  intro cfg script
  induction script with
  | nil => exact fun _ _ _ _ => rfl
  | cons x rest ih =>
    intro b c h hcmd
    have ⟨hblock, hbyte⟩ := h.transact (cfg := cfg) (x := x) fun v hx => hcmd v (hx ▸ List.mem_cons_self)
    have hrest := ih _ _ hblock fun v hv => hcmd v (List.mem_cons_of_mem x hv)
    simp only [Block.run, hbyte, hrest]

/-- Settles O5: each address is a named location's own, or it is reserved. -/
theorem hostReadReturnsMappedByte : Obligations.HostReadReturnsMappedByte := by
  intro s a rest hs
  obtain ⟨⟨-, hblk⟩, ⟨-, hklen⟩, hnpad, hiv0⟩ := Config.cfg_wf.bounds
  refine ⟨_, step_read hs, hostRead_regAddr (r := .cmd) trivial, hostRead_regAddr (r := .status) trivial,
    hostRead_regAddr (r := .res) trivial, hostRead_regAddr (r := .errc) trivial, hostRead_regAddr (r := .len) trivial,
    fun h => ?_, fun h => ?_, fun h => ?_, fun h => ?_, fun h => ?_, hostRead_regAddr (r := .cfgPadByte) trivial,
    hostRead_regAddr (r := .cfgBias) trivial, fun h => ?_, hostRead_keyWindow, fun i hi h => ?_,
    fun i hi hi' h => ?_, fun h => ?_, fun i hi => hostRead_regAddr (r := .buf i) (Nat.lt_succ_of_le hi)⟩
  · exact hostRead_reserved (ne_regAddr_of_reserved (by omega))
  · exact hostRead_regAddr (r := .cfgMode) trivial h
  · rw [hostRead_regAddr (r := .cfgBlk) trivial h]
    exact toNat_byte (by omega)
  · rw [hostRead_regAddr (r := .cfgKlen) trivial h]
    exact toNat_byte (by omega)
  · rw [hostRead_regAddr (r := .cfgNpad) trivial h]
    exact toNat_byte (by omega)
  · exact hostRead_reserved (ne_regAddr_of_reserved (by omega))
  · have hlen : i < Config.cfg.iv0.length := hiv0 ▸ hi
    rw [hostRead_regAddr (r := .iv0 i) ⟨hi, by omega⟩ h, Block.readReg, List.getD_eq_getElem _ _ hlen]
    exact List.getElem?_eq_getElem hlen
  · exact hostRead_reserved (ne_regAddr_of_reserved (by omega))
  · exact hostRead_reserved (ne_regAddr_of_reserved (by omega))

/-- Settles O6: the three writable kinds of location by their addresses, and every other address. -/
theorem hostWriteChangesMappedLocation : Obligations.HostWriteChangesMappedLocation := by
  intro s a v rest hbuf hs ha
  have hcmd : a ≠ 0x000 := fun h => ha (congrArg BitVec.toNat h)
  refine ⟨_, step_write hs hcmd, fun h => hostStore_regAddr (r := .len) trivial h v, fun i hi hk h => ?_,
    fun i hi h => ?_, fun hlen hkey hlow => hostStore_ignored hlen hkey hlow v⟩
  · rw [hostStore_regAddr (r := .key i) ⟨hk, hi⟩ h, Block.writeReg, writeKey_eq_set hi]
  · have hi' : i < 256 := by omega
    rw [hostStore_regAddr (r := .buf i) hi' h]
    refine ⟨rfl, ?_, fun j hj => ?_⟩
    · simp only [Block.writeReg, Memory.read_write hbuf, hi', and_self, if_true]
    · simp only [Block.writeReg, Memory.read_write hbuf, hj.symm, false_and, if_false]

/-- Settles O7: outside `CMD` a write is a store, and a store is idempotent. -/
theorem repeatedHostWriteIsIdempotent : Obligations.RepeatedHostWriteIsIdempotent := by
  intro cfg b a v hb ha
  rw [transact_write ha, transact_write ha]
  exact hostStore_hostStore hb a v

/-- Settles O41: `CMD` and the key window read as 0x00, and no register's reading depends on `KEY`. -/
theorem keyCannotBeRead : Obligations.KeyCannotBeRead := by
  refine ⟨fun b a ha => ?_, fun b c a h => h.hostRead_eq a⟩
  rcases ha with hcmd | ⟨hlo, hhi⟩
  · exact hostRead_regAddr (r := .cmd) trivial hcmd
  · have hk := Config.cfg_wf.klen_le
    exact hostRead_keyWindow ⟨hlo, by omega⟩

/-- Settles O9: the model's step on an empty script. -/
theorem idleHostLeavesState : Obligations.IdleHostLeavesState := step_nil

end Sys2Proof.Machine
end

section
/-! PROOFS of the family 30_encoding.md: the opcode map (R70 to R74), the frame (R85, R86), and what the transactions of
a `load` and of a `key` line do (R81). -/

namespace Sys2Proof.Machine

section Rules

variable {cfg : Cfg} {b : Block}

/-! ### The opcode map (30_encoding.md R70 to R74) -/

/-- The laws of the five constructors, as one statement about every command. -/
theorem encoding_statement (i : Instr) : Laws.Encoding.Statement i := by
  cases i with
  | csCompute => exact Laws.Encoding.csCompute
  | csValidate => exact Laws.Encoding.csValidate
  | crEncrypt => exact Laws.Encoding.crEncrypt
  | crDecrypt => exact Laws.Encoding.crDecrypt
  | srst => exact Laws.Encoding.srst

theorem decode_encode (i : Instr) : decode (encode i) = .command i := (encoding_statement i).2.1

/-- A byte is the encoding of the command it decodes to, or it is illegal. -/
theorem decode_command_or_illegal (v : Byte) :
    (∃ i, decode v = .command i ∧ v = encode i) ∨ decode v = .illegal v := by
  rcases decode_cases v with ⟨hv, h⟩ | ⟨hv, h⟩ | ⟨hv, h⟩ | ⟨hv, h⟩ | ⟨hv, h⟩ | ⟨-, h⟩
  · exact .inl ⟨_, h, hv⟩
  · exact .inl ⟨_, h, hv⟩
  · exact .inl ⟨_, h, hv⟩
  · exact .inl ⟨_, h, hv⟩
  · exact .inl ⟨_, h, hv⟩
  · exact .inr h

theorem command_of_decode {v : Byte} {i : Instr} (h : decode v = .command i) (s : State) :
    command v s = exec i s := by
  rw [command, h]

/-- A step that writes to `CMD` performs the command byte. -/
theorem step_command {s : State} {v : Byte} {rest : List HostAction} (hs : s.script = .write 0x000 v :: rest) :
    step s = command v { s with script := rest } := by
  rw [step_cons s _ rest hs]
  rfl

/-! ### The frame (30_encoding.md R85, R86) -/

/-- Three bytes by name; `frameOfBytes` builds its vector so. -/
theorem eq_three_elements (p : Vector Byte 3) : p = #v[p[0], p[1], p[2]] := by
  ext j hj
  match j, hj with
  | 0, _ => rfl
  | 1, _ => rfl
  | 2, _ => rfl

/-- The bytes of a frame, the six of fixed offset written out. -/
theorem Frame.toBytes_eq (f : Frame) :
    f.toBytes = f.magic :: f.transferMode :: f.staticPrefix[0] :: f.staticPrefix[1] :: f.staticPrefix[2] ::
      f.groupCode :: (f.payload ++ [f.checksum]) := by
  have hlist : f.staticPrefix.toList = [f.staticPrefix[0], f.staticPrefix[1], f.staticPrefix[2]] :=
    congrArg Vector.toList (eq_three_elements f.staticPrefix)
  simp [toBytes, covered, hlist]

theorem Frame.length_toBytes (f : Frame) : f.toBytes.length = f.payload.length + 7 := by
  simp [toBytes_eq]

/-- All bytes but the last are the covered ones. -/
theorem Frame.take_toBytes (f : Frame) : f.toBytes.take (f.toBytes.length - 1) = f.covered := by
  simp [toBytes]

theorem frameOfBytes_toBytes (f : Frame) : frameOfBytes f.toBytes = some f := by
  simp [Frame.toBytes_eq, frameOfBytes, ← eq_three_elements]

/-- A sequence of at least 7 bytes has a byte for every field. -/
theorem exists_frame_of_length {bytes : Bytes} (h : 7 ≤ bytes.length) : ∃ f : Frame, f.toBytes = bytes := by
  match bytes, h with
  | m :: t :: p0 :: p1 :: p2 :: g :: v :: rest, _ =>
    refine ⟨⟨m, t, #v[p0, p1, p2], g, (v :: rest).dropLast, (v :: rest).getLast (by simp)⟩, ?_⟩
    simp [Frame.toBytes_eq, List.dropLast_append_getLast]

/-- Only the bytes of a frame split into its fields. -/
theorem toBytes_of_frameOfBytes {bytes : Bytes} {f : Frame} (h : frameOfBytes bytes = some f) : f.toBytes = bytes := by
  unfold frameOfBytes at h
  split at h
  · next m t p0 p1 p2 g rest =>
    split at h
    · next c hc =>
      cases h
      have hrest : rest.dropLast ++ [c] = rest := List.dropLast_append_getLast? c hc
      simp [Frame.toBytes_eq, hrest]
    · cases h
  · cases h

theorem toNat_sum8 (s : Bytes) : (sum8 s).toNat = (s.map BitVec.toNat).sum % 256 := BitVec.toNat_ofNat _ _

/-! ### Runs of writes to one window (30_encoding.md R81) -/

/-- A run performs its first action and then the rest: a write elsewhere than to `CMD` stores and reads nothing. -/
theorem run_write_cons {a : HostAddr} (ha : a ≠ 0x000) (v : Byte) (rest : List HostAction) :
    b.run cfg (.write a v :: rest) = (b.hostStore cfg a v).run cfg rest := by
  simp only [Block.run, transact_write ha]
  rfl

theorem run_append (b : Block) (xs ys : List HostAction) : b.run cfg (xs ++ ys) =
    (((b.run cfg xs).1.run cfg ys).1, (b.run cfg xs).2 ++ ((b.run cfg xs).1.run cfg ys).2) := by
  induction xs generalizing b with
  | nil => rfl
  | cons x xs ih => simp only [List.cons_append, Block.run, ih, List.append_assoc]

/-- Bytes written one after another to the registers of a window from offset `i` on; `run_writeRun` ties it to the
transactions. -/
def Block.writeRegs (window : Nat → Reg) : Block → Nat → Bytes → Block
  | b, _, [] => b
  | b, i, v :: bytes => (b.writeReg v (window i)).writeRegs window (i + 1) bytes

/-- The transactions that write a run of bytes to a window, as long as its registers are in the map at rising addresses
past `CMD`. -/
theorem run_writeRun {window : Nat → Reg} {base i : Nat} {bytes : Bytes} (hbase : 0 < base)
    (haddr : ∀ j, regAddr (window j) = base + j) (hfit : base + (i + bytes.length) ≤ 512)
    (hmap : ∀ j < i + bytes.length, RegInMap cfg (window j)) :
    b.run cfg (writeRun base i bytes) = (b.writeRegs window i bytes, []) := by
  induction bytes generalizing b i with
  | nil => rfl
  | cons v bytes ih =>
    simp only [List.length_cons] at hfit hmap
    have hnat : (BitVec.ofNat 9 (base + i)).toNat = base + i := by
      rw [BitVec.toNat_ofNat, Nat.mod_eq_of_lt (by omega)]
    have hcmd : BitVec.ofNat 9 (base + i) ≠ 0x000 := fun h => by
      have : base + i = 0 := hnat.symm.trans (congrArg BitVec.toNat h)
      omega
    rw [writeRun, run_write_cons hcmd, hostStore_regAddr (hmap i (by omega)) (hnat.trans (haddr i).symm),
      ih (by omega) (fun j hj => hmap j (by omega))]
    rfl

theorem writeRegs_buf (b : Block) (i : Nat) (bytes : Bytes) :
    b.writeRegs .buf i bytes = { b with buf := b.buf.writeAll i bytes } := by
  induction bytes generalizing b i with
  | nil => rfl
  | cons v bytes ih => exact ih _ (i + 1)

/-- Writing key bytes changes nothing but the key store. -/
theorem writeRegs_key_frame (b : Block) (i : Nat) (bytes : Bytes) :
    b.writeRegs .key i bytes =
      { b with key := (b.writeRegs .key i bytes).key, kw := (b.writeRegs .key i bytes).kw } := by
  induction bytes generalizing b i with
  | nil => rfl
  | cons v bytes ih => exact ih (b.writeKey i v) (i + 1)

/-- What `KEY[j]` and `KW[j]` hold after a run of key bytes is written from offset `i`. -/
theorem getElem_writeRegs_key (b : Block) (i : Nat) (bytes : Bytes) (j : Nat) (hj : j < 64) :
    (b.writeRegs .key i bytes).key[j] = (if i ≤ j then (bytes[j - i]?).getD b.key[j] else b.key[j]) ∧
    (b.writeRegs .key i bytes).kw[j] = (b.kw[j] || decide (i ≤ j ∧ j < i + bytes.length)) := by
  induction bytes generalizing b i with
  | nil => simp [Block.writeRegs, show ¬ (i ≤ j ∧ j < i) by omega]
  | cons v bytes ih =>
    obtain ⟨hkey, hkw⟩ := ih (b.writeKey i v) (i + 1)
    rw [Block.writeKey_key, Vector.getElem_setIfInBounds] at hkey
    rw [Block.writeKey_kw, Vector.getElem_setIfInBounds] at hkw
    refine ⟨hkey.trans ?_, hkw.trans ?_⟩
    · rcases lt_trichotomy i j with hij | rfl | hij
      · simp [hij.ne, hij.le, Nat.succ_le_of_lt hij, show j - i = (j - (i + 1)) + 1 by omega]
      · simp
      · simp [hij.ne', show ¬ i ≤ j by omega, show ¬ i + 1 ≤ j by omega]
    · by_cases hij : i = j
      · simp [hij]
      · simp only [if_neg hij, List.length_cons, show (i + 1 ≤ j ∧ j < i + 1 + bytes.length) ↔
          (i ≤ j ∧ j < i + (bytes.length + 1)) by omega]

end Rules

/-! ### The obligations -/

/-- Settles O23: the round trip from fields to bytes, its converse, and the byte of each field by its offset. -/
theorem frameLayoutRoundTrip : Obligations.FrameLayoutRoundTrip := by
  refine ⟨frameOfBytes_toBytes, fun bytes f => toBytes_of_frameOfBytes, fun bytes => ⟨fun h => ?_, fun h => ?_⟩,
    fun f j => ?_⟩
  · obtain ⟨f, hf⟩ := Option.isSome_iff_exists.mp h
    rw [← toBytes_of_frameOfBytes hf, f.length_toBytes]
    omega
  · obtain ⟨f, rfl⟩ := exists_frame_of_length h
    rw [frameOfBytes_toBytes]
    rfl
  · rw [f.length_toBytes, f.toBytes_eq]
    refine ⟨rfl, rfl, fun hj => ?_, rfl, fun hj => ?_, ?_⟩
    · match j, hj with
      | 0, _ => rfl
      | 1, _ => rfl
      | 2, _ => rfl
    · rw [show 6 + j = j + 6 by omega]
      exact List.getElem?_append_left hj
    · exact List.getElem?_concat_length

/-- Settles O24: a frame is its covered bytes and then its checksum, which is what `cs_validate` splits. -/
theorem frameValidIffChecksumCoversAll : Obligations.FrameValidIffChecksumCoversAll := by
  refine ⟨fun cfg f => ?_, fun s => ?_⟩
  · rw [f.take_toBytes, Frame.toBytes, csValidate_append_singleton, beq_iff_eq]
    exact eq_comm
  · have hlt : (s.map BitVec.toNat).sum % 256 < 256 := Nat.mod_lt _ (by decide)
    rw [csCompute, Config.cfg_bias, BitVec.toNat_sub, toNat_sum8, show (0xFC : Byte).toNat = 0xFC from rfl]
    omega

/-- Settles O50: the bytes go to `BUF` from index 0, then their number to `LEN`. -/
theorem loadLeavesOperand : Obligations.LoadLeavesOperand := by
  intro cfg b bytes hbuf hwf
  have hlen : bytes.length ≤ 255 := of_decide_eq_true hwf
  have hrun : b.run cfg (expandLine (.load bytes)) =
      ({ b with len := BitVec.ofNat 8 bytes.length, buf := b.buf.writeAll 0 bytes }, []) := by
    rw [expandLine, run_append, run_writeRun (window := .buf) (by decide) (fun _ => rfl) (by omega)
      (fun j hj => show j < 256 by omega), writeRegs_buf, run_write_cons (by decide),
      hostStore_regAddr (r := .len) trivial rfl]
    rfl
  rw [hrun]
  refine ⟨rfl, ?_, rfl⟩
  rw [Block.operand, toNat_byte (by omega), Memory.slice_writeAll hbuf bytes (by omega) _ le_rfl, List.take_length]

/-- Settles O51: the bytes fill the key slots from 0 to `KLEN - 1` and mark each one written. -/
theorem keyLineLoadsKey : Obligations.KeyLineLoadsKey := by
  intro cfg hwf b k hk
  have hklen := hwf.klen_le
  have hrun : b.run cfg (expandLine (.key k)) = (b.writeRegs .key 0 k, []) :=
    run_writeRun (by decide) (fun _ => rfl) (by omega) (fun j hj => ⟨by omega, by omega⟩)
  rw [hrun]
  refine ⟨rfl, List.ext_getElem ?_ fun j hj hjk => ?_, ?_, writeRegs_key_frame b 0 k⟩
  · rw [length_keyOperand hwf, hk]
  · simp [Block.keyOperand, getElem_writeRegs_key b 0 k j (by omega), hjk]
  · refine (keyComplete_iff _).mpr fun i hi hik => ?_
    simp [getElem_writeRegs_key b 0 k i hi, hk, hik]

/-- Settles O1: the encoding laws of the constructors, and the case split of the decoder. -/
theorem decodeOfEncodeIsCommand : Obligations.DecodeOfEncodeIsCommand := by
  refine ⟨fun i => (encoding_statement i).2, fun v i h => ?_, fun v => ?_⟩
  · rcases decode_command_or_illegal v with ⟨i', h', rfl⟩ | h'
    · cases h.symm.trans h'
      rfl
    · cases h.symm.trans h'
  · exact (decode_command_or_illegal v).imp_left fun ⟨i, h, _⟩ => ⟨i, h⟩

/-- Settles O2: the five words are the encodings of the commands; a byte that is none of them has one case left. -/
theorem opcodeMapWordsDecode : Obligations.OpcodeMapWordsDecode := by
  refine ⟨decode_encode .csCompute, decode_encode .csValidate, decode_encode .crEncrypt, decode_encode .crDecrypt,
    decode_encode .srst, fun v h01 h02 h10 h11 hFF => ?_⟩
  rcases decode_cases v with ⟨hv, -⟩ | ⟨hv, -⟩ | ⟨hv, -⟩ | ⟨hv, -⟩ | ⟨hv, -⟩ | ⟨-, h⟩
  · exact absurd hv h01
  · exact absurd hv h02
  · exact absurd hv h10
  · exact absurd hv h11
  · exact absurd hv hFF
  · exact h

/-- Settles O3: the step is the command byte, the byte is its command, and `CMD` reads as 0x00. -/
theorem stepRunsDecodedCommand : Obligations.StepRunsDecodedCommand := by
  refine ⟨fun s v rest i hs hv _ => ?_, fun s => hostRead_regAddr (r := .cmd) trivial rfl⟩
  rw [step_command hs, command_of_decode hv]

end Sys2Proof.Machine
end

section
/-! PROOFS of the family 40_checksum.md: the byte sum (R100), what the two checksum functions say of a sequence (R101 to
R109, R112), and what the two commands write (R110, R111). -/

namespace Sys2Proof.Machine

section Rules

variable {cfg : Cfg} {s t f : Bytes} {c : Byte}

/-! ### The byte sum (40_checksum.md R100) -/

/-- Two byte sums are equal when the exact sums agree modulo 256. -/
theorem sum8_eq_of_mod_eq (h : (s.map BitVec.toNat).sum % 256 = (t.map BitVec.toNat).sum % 256) :
    sum8 s = sum8 t :=
  BitVec.eq_of_toNat_eq (by rw [toNat_sum8, toNat_sum8, h])

/-- The byte sum does not see the order of the bytes (R107). -/
theorem sum8_perm (h : s.Perm t) : sum8 s = sum8 t :=
  congrArg (BitVec.ofNat 8) (h.map BitVec.toNat).sum_eq

/-- The byte-serial subtraction, from any start value. -/
theorem foldl_sub_eq (s : Bytes) (acc : Byte) : s.foldl (fun a v => a - v) acc = acc - sum8 s := by
  induction s generalizing acc with
  | nil => simp
  | cons v s ih => rw [List.foldl_cons, ih, sum8_cons, sub_sub]

/-! ### The checksum functions (40_checksum.md R101 to R108) -/

@[simp] theorem csCompute_nil (cfg : Cfg) : csCompute cfg [] = cfg.bias := by simp [csCompute]

/-- The checksum of an extension (R108). -/
theorem csCompute_append (cfg : Cfg) (s t : Bytes) : csCompute cfg (s ++ t) = csCompute cfg s - sum8 t := by
  rw [csCompute, csCompute, sum8_append, sub_sub]

/-- The checksum depends on the byte sum alone. -/
theorem csCompute_congr (h : sum8 s = sum8 t) : csCompute cfg s = csCompute cfg t := by
  rw [csCompute, csCompute, h]

/-- The checksum is the byte that brings the whole sum to `BIAS` (R105). -/
theorem csCompute_eq_iff : csCompute cfg s = c ↔ sum8 (s ++ [c]) = cfg.bias := by
  rw [csCompute, sum8_append, sum8_singleton, sub_eq_iff_eq_add', eq_comm]

/-- The whole-frame form of validation (R104). -/
theorem csValidate_iff_sum8 (hf : f ≠ []) : csValidate cfg f = true ↔ sum8 f = cfg.bias := by
  have hsplit : f.dropLast ++ [f.getLast hf] = f := List.dropLast_append_getLast hf
  rw [← hsplit, csValidate_append_singleton, beq_iff_eq, csCompute_eq_iff]

/-- A single byte validates exactly when it is `BIAS`. -/
theorem csValidate_singleton : csValidate cfg [c] = true ↔ c = cfg.bias := by
  rw [csValidate_iff_sum8 (List.cons_ne_nil c []), sum8_singleton]

/-- Sequences with the same checksum validate with the same trailing bytes. -/
theorem csValidate_append_congr (h : csCompute cfg s = csCompute cfg t) (c : Byte) :
    csValidate cfg (s ++ [c]) = csValidate cfg (t ++ [c]) := by
  rw [csValidate_append_singleton, csValidate_append_singleton, h]

/-- How far the alternative formula is from the checksum: by what the first byte `m` is short of `BIAS` (R109). -/
theorem csCompute_sub_csAlt (cfg : Cfg) (m : Byte) (r : Bytes) :
    csCompute cfg (m :: r) - csAlt (m :: r) = cfg.bias - m := by
  rw [csCompute, csAlt, List.tail_cons, sum8_cons]
  bv_omega

/-! ### The checksum commands (40_checksum.md R110, R111) -/

/-- The data operand, read by read. -/
theorem Block.operand_eq_map_read (b : Block) :
    b.operand = (List.range b.len.toNat).map fun i => b.buf.read i := by
  simp [operand, Memory.slice]

theorem Block.operand_eq_nil_iff (b : Block) : b.operand = [] ↔ b.len = 0x00 := by
  rw [← List.length_eq_zero_iff, length_operand, ← BitVec.toNat_inj]
  rfl

theorem Block.operand_of_len_one {b : Block} (h : b.len = 0x01) : b.operand = [b.buf.read 0] := by
  rw [operand_eq_map_read, h]
  rfl

theorem boolByte_eq_one_iff (x : Bool) : boolByte x = 0x01 ↔ x = true := by
  cases x <;> decide

theorem Block.csCompute_res (b : Block) : (b.csCompute cfg).res = Machine.csCompute cfg b.operand := rfl

theorem Block.csValidate_res (b : Block) : (b.csValidate cfg).res = boolByte (Machine.csValidate cfg b.operand) := rfl

/-- `CS.COMPUTE` keeps its operand, so a second one writes what the first wrote (R110). -/
theorem Block.csCompute_idem (b : Block) : (b.csCompute cfg).csCompute cfg = b.csCompute cfg := rfl

end Rules

/-! ### The obligations -/

/-- Settles O13: the sum goes through the reduction modulo 256, and the accumulator adds the sum to its start value. -/
theorem byteSumIsWrappingAccumulator : Obligations.ByteSumIsWrappingAccumulator := by
  refine ⟨sum8_nil, toNat_sum8, fun s t => ?_, fun s => ?_⟩
  · rw [sum8_append, BitVec.toNat_add]
  · rw [foldl_add_eq, zero_add]

/-- Settles O14: recomputing over all bytes but the last and comparing is adding them all up. -/
theorem validatesIffWholeSumIsBias : Obligations.ValidatesIffWholeSumIsBias :=
  fun cfg => ⟨csValidate_nil cfg, fun _ hf => csValidate_iff_sum8 hf⟩

/-- Settles O15: with its last byte split off, a sequence validates exactly when that byte is the checksum. -/
theorem exactlyOneTrailingByteValidates : Obligations.ExactlyOneTrailingByteValidates := by
  intro cfg s
  have hiff : ∀ c, csValidate cfg (s ++ [c]) = true ↔ csCompute cfg s = c := fun c => by
    rw [csValidate_append_singleton, beq_iff_eq]
  exact ⟨(hiff _).mpr rfl, fun c hc => ((hiff c).mp hc).symm⟩

/-- Settles O16: were both sequences valid, their sums would both be `BIAS`, so the byte put in would be the one
replaced. -/
theorem singleByteChangeIsDetected : Obligations.SingleByteChangeIsDetected := by
  intro cfg f i v hf hi hv
  have hne : f ≠ [] := List.ne_nil_of_length_pos (by omega)
  have hne' : f.set i v ≠ [] := by simpa using hne
  refine Bool.eq_false_iff.mpr fun hg => hv ?_
  have hsum := sum8_set f i v hi
  rw [(csValidate_iff_sum8 hne').mp hg, (csValidate_iff_sum8 hne).mp hf] at hsum
  exact (add_left_cancel hsum).symm

/-- Settles O17: each of the changes keeps the byte sum, on which alone the checksum depends. -/
theorem reorderingIsNotDetected : Obligations.ReorderingIsNotDetected := by
  intro cfg s t c
  have hsame : sum8 s = sum8 t →
      csCompute cfg s = csCompute cfg t ∧ csValidate cfg (s ++ [c]) = csValidate cfg (t ++ [c]) :=
    fun h => ⟨csCompute_congr h, csValidate_append_congr (csCompute_congr h) c⟩
  refine ⟨fun h => hsame (sum8_perm h), fun h => hsame (sum8_eq_of_mod_eq h), fun n => ?_⟩
  have hzero : sum8 (List.replicate n 0x00) = 0x00 := sum8_replicate_zero n
  rw [csCompute_append, hzero, sub_zero]

/-- Settles O18: the sum of the extension is subtracted, and a byte-serial register does so one byte at a time. -/
theorem checksumOfExtensionSubtracts : Obligations.ChecksumOfExtensionSubtracts := by
  intro cfg s t
  refine ⟨csCompute_append cfg s t, fun b => ?_, ?_, ?_⟩
  · rw [csCompute_append, sum8_singleton]
  · rw [foldl_sub_eq, csCompute]
  · rw [foldl_add_eq, zero_add, csCompute]

/-- Settles O19: the two differ by `BIAS - m`, which is 0 when `m` is `BIAS`. -/
theorem alternativeChecksumAgreesOnMagic : Obligations.AlternativeChecksumAgreesOnMagic := by
  intro cfg hbias
  have hdiff : ∀ (m : Byte) (r : Bytes), csCompute cfg (m :: r) - csAlt (m :: r) = 0xFC - m := fun m r => by
    rw [csCompute_sub_csAlt, hbias]
  exact ⟨fun r => (sub_eq_zero.mp (hdiff 0xFC r)).symm, hdiff⟩

/-- Settles O20: the command is its effect on the block, which keeps the operand. -/
theorem computeCommandWritesChecksum : Obligations.ComputeCommandWritesChecksum := by
  intro s
  refine ⟨s.withBlock (s.block.csCompute Config.cfg), exec_eq .csCompute s, ?_, fun hlen => ?_, fun u hu => ?_⟩
  · rw [← Block.operand_eq_map_read]
    rfl
  · rw [State.withBlock_block, Block.csCompute_res, (Block.operand_eq_nil_iff _).mpr hlen, csCompute_nil,
      Config.cfg_bias]
  · rw [exec_eq] at hu
    cases hu
    exact congrArg s.withBlock s.block.csCompute_idem

/-- Settles O21: the command is its effect on the block, and the corner cases are those of `cs_validate` on the
operand. -/
theorem validateCommandWritesVerdict : Obligations.ValidateCommandWritesVerdict := by
  intro s
  rw [← Block.operand_eq_map_read]
  refine ⟨s.withBlock (s.block.csValidate Config.cfg), exec_eq .csValidate s, rfl, fun hlen => ?_, fun hlen => ?_,
    fun hlen => ?_⟩
  · rw [State.withBlock_block, Block.csValidate_res, (Block.operand_eq_nil_iff _).mpr hlen, csValidate_nil]
    rfl
  · rw [State.withBlock_block, Block.csValidate_res, boolByte_eq_one_iff, Block.operand_of_len_one hlen,
      csValidate_singleton, Config.cfg_bias]
  · have hne : s.block.operand ≠ [] := mt (Block.operand_eq_nil_iff _).mp hlen
    rw [State.withBlock_block, Block.csValidate_res, boolByte_eq_one_iff, csValidate_iff_sum8 hne, Config.cfg_bias]

end Sys2Proof.Machine
end

section
/-! PROOFS of the family 41_crypto.md, the functions: padding (R132 to R134), chaining in ECB and CBC (R142 to R147,
R159), and `cr_encrypt` and `cr_decrypt` (R140, R141, R148, R152 to R156). -/

namespace Sys2Proof.Machine

section Rules

variable {cfg : Cfg} {k c x y p : Bytes}

/-! ### The blocks of a sequence (41_crypto.md R143) -/

/-- Whole blocks in a row: the blocks of both parts. -/
theorem blocks_append (hpos : 0 < cfg.blk) (hx : x.length % cfg.blk = 0) (hy : y.length % cfg.blk = 0) :
    blocks cfg (x ++ y) = blocks cfg x ++ blocks cfg y := by
  have hall : AllBlocks cfg (blocks cfg x ++ blocks cfg y) := fun d hd =>
    (List.mem_append.mp hd).elim (allBlocks_blocks x hx d) (allBlocks_blocks y hy d)
  rw [← blocks_flatten hpos hall, List.flatten_append, flatten_blocks hpos x hx, flatten_blocks hpos y hy]

/-! ### The CBC recurrences on a list of blocks (41_crypto.md R146, R147) -/

/-- The first ciphertext block is chained to the chaining value. -/
theorem getElem_cbcEncBlocks_zero (xs : List Bytes) (h : 0 < (cbcEncBlocks cfg k c xs).length) :
    (cbcEncBlocks cfg k c xs)[0] = cfg.E k (xorBytes (xs[0]'(by rwa [length_cbcEncBlocks] at h)) c) := by
  cases xs with
  | nil => exact absurd h (Nat.lt_irrefl 0)
  | cons d xs => rfl

/-- Every other ciphertext block is chained to the one before it. -/
theorem getElem_cbcEncBlocks_succ (xs : List Bytes) (j : Nat) (h : j + 1 < (cbcEncBlocks cfg k c xs).length) :
    (cbcEncBlocks cfg k c xs)[j + 1] =
      cfg.E k (xorBytes (xs[j + 1]'(by rwa [length_cbcEncBlocks] at h)) (cbcEncBlocks cfg k c xs)[j]) := by
  induction xs generalizing c j with
  | nil => exact absurd h (Nat.not_lt_zero _)
  | cons d xs ih =>
    have ht := Nat.lt_of_succ_lt_succ h
    cases j with
    | zero => exact getElem_cbcEncBlocks_zero xs ht
    | succ j => exact ih j ht

/-- The first plaintext block is unchained with the chaining value. -/
theorem getElem_cbcDecBlocks_zero (ys : List Bytes) (h : 0 < (cbcDecBlocks cfg k c ys).length) :
    (cbcDecBlocks cfg k c ys)[0] = xorBytes (cfg.D k (ys[0]'(by rwa [length_cbcDecBlocks] at h))) c := by
  cases ys with
  | nil => exact absurd h (Nat.lt_irrefl 0)
  | cons d ys => rfl

/-- Every other plaintext block is unchained with the input block before it. -/
theorem getElem_cbcDecBlocks_succ (ys : List Bytes) (j : Nat) (h : j + 1 < (cbcDecBlocks cfg k c ys).length) :
    (cbcDecBlocks cfg k c ys)[j + 1] = xorBytes (cfg.D k (ys[j + 1]'(by rwa [length_cbcDecBlocks] at h)))
      (ys[j]'(by rw [length_cbcDecBlocks] at h; omega)) := by
  induction ys generalizing c j with
  | nil => exact absurd h (Nat.not_lt_zero _)
  | cons d ys ih =>
    have ht := Nat.lt_of_succ_lt_succ h
    cases j with
    | zero => exact getElem_cbcDecBlocks_zero ys ht
    | succ j => exact ih j ht

/-- Blocks added behind do not change the ciphertext of those in front. -/
theorem cbcEncBlocks_append (xs ys : List Bytes) :
    ∃ zs, cbcEncBlocks cfg k c (xs ++ ys) = cbcEncBlocks cfg k c xs ++ zs := by
  induction xs generalizing c with
  | nil => exact ⟨_, rfl⟩
  | cons d xs ih =>
    obtain ⟨zs, hzs⟩ := ih
    exact ⟨zs, congrArg (List.cons _) hzs⟩

/-! ### Chaining as `MODE` says, on a list of blocks (41_crypto.md R142) -/

/-- The ciphertext blocks of `chain_enc`. -/
def chainEncBlocks (cfg : Cfg) (k : Bytes) (xs : List Bytes) : List Bytes :=
  match cfg.mode with
  | .ecb => xs.map (cfg.E k)
  | .cbc => cbcEncBlocks cfg k cfg.iv0 xs

/-- The plaintext blocks of `chain_dec`. -/
def chainDecBlocks (cfg : Cfg) (k : Bytes) (ys : List Bytes) : List Bytes :=
  match cfg.mode with
  | .ecb => ys.map (cfg.D k)
  | .cbc => cbcDecBlocks cfg k cfg.iv0 ys

theorem chainEnc_eq_flatten (k x : Bytes) : chainEnc cfg k x = (chainEncBlocks cfg k (blocks cfg x)).flatten := by
  unfold chainEnc chainEncBlocks
  cases cfg.mode <;> rfl

theorem chainDec_eq_flatten (k y : Bytes) : chainDec cfg k y = (chainDecBlocks cfg k (blocks cfg y)).flatten := by
  unfold chainDec chainDecBlocks
  cases cfg.mode <;> rfl

theorem length_chainEncBlocks (k : Bytes) (xs : List Bytes) : (chainEncBlocks cfg k xs).length = xs.length := by
  unfold chainEncBlocks
  cases cfg.mode with
  | ecb => exact List.length_map _
  | cbc => exact length_cbcEncBlocks k _ xs

theorem length_chainDecBlocks (k : Bytes) (ys : List Bytes) : (chainDecBlocks cfg k ys).length = ys.length := by
  unfold chainDecBlocks
  cases cfg.mode with
  | ecb => exact List.length_map _
  | cbc => exact length_cbcDecBlocks k _ ys

/-- Blocks added behind do not change the ciphertext of those in front, in either mode. -/
theorem chainEncBlocks_append (k : Bytes) (xs ys : List Bytes) :
    ∃ zs, chainEncBlocks cfg k (xs ++ ys) = chainEncBlocks cfg k xs ++ zs := by
  unfold chainEncBlocks
  cases cfg.mode with
  | ecb => exact ⟨ys.map (cfg.E k), List.map_append⟩
  | cbc => exact cbcEncBlocks_append xs ys

section Key

variable (hwf : cfg.WF) (hk : k.length = cfg.klen)
include hwf hk

theorem allBlocks_chainEncBlocks {xs : List Bytes} (h : AllBlocks cfg xs) :
    AllBlocks cfg (chainEncBlocks cfg k xs) := by
  unfold chainEncBlocks
  cases cfg.mode with
  | ecb => exact allBlocks_mapE hwf k hk h
  | cbc => exact allBlocks_cbcEnc hwf k hk hwf.iv0_length h

theorem allBlocks_chainDecBlocks {ys : List Bytes} (h : AllBlocks cfg ys) :
    AllBlocks cfg (chainDecBlocks cfg k ys) := by
  unfold chainDecBlocks
  cases cfg.mode with
  | ecb => exact allBlocks_mapD hwf k hk h
  | cbc => exact allBlocks_cbcDec hwf k hk hwf.iv0_length h

/-- Under an accepted key chaining undoes itself: in ECB block by block, in CBC by the chaining value's return. -/
theorem chainDecBlocks_chainEncBlocks (hok : cfg.keyOK k = true) {xs : List Bytes} (h : AllBlocks cfg xs) :
    chainDecBlocks cfg k (chainEncBlocks cfg k xs) = xs := by
  unfold chainDecBlocks chainEncBlocks
  cases cfg.mode with
  | ecb =>
    calc (xs.map (cfg.E k)).map (cfg.D k)
      _ = xs.map id := by rw [List.map_map]; exact List.map_congr_left fun d hd => hwf.D_E k d hk (h d hd) hok
      _ = xs := List.map_id xs
  | cbc => exact cbcDec_cbcEnc_blocks hwf k hk hok hwf.iv0_length h

theorem chainEncBlocks_chainDecBlocks (hok : cfg.keyOK k = true) {ys : List Bytes} (h : AllBlocks cfg ys) :
    chainEncBlocks cfg k (chainDecBlocks cfg k ys) = ys := by
  unfold chainDecBlocks chainEncBlocks
  cases cfg.mode with
  | ecb =>
    calc (ys.map (cfg.D k)).map (cfg.E k)
      _ = ys.map id := by rw [List.map_map]; exact List.map_congr_left fun d hd => hwf.E_D k d hk (h d hd) hok
      _ = ys := List.map_id ys
  | cbc => exact cbcEnc_cbcDec_blocks hwf k hk hok hwf.iv0_length h

/-! ### Chaining as `MODE` says, on a sequence of whole blocks (41_crypto.md R142) -/

theorem blocks_chainEnc (hx : x.length % cfg.blk = 0) :
    blocks cfg (chainEnc cfg k x) = chainEncBlocks cfg k (blocks cfg x) := by
  rw [chainEnc_eq_flatten, blocks_flatten hwf.blk_pos (allBlocks_chainEncBlocks hwf hk (allBlocks_blocks x hx))]

theorem blocks_chainDec (hy : y.length % cfg.blk = 0) :
    blocks cfg (chainDec cfg k y) = chainDecBlocks cfg k (blocks cfg y) := by
  rw [chainDec_eq_flatten, blocks_flatten hwf.blk_pos (allBlocks_chainDecBlocks hwf hk (allBlocks_blocks y hy))]

theorem length_chainEnc (hx : x.length % cfg.blk = 0) : (chainEnc cfg k x).length = x.length := by
  rw [chainEnc_eq_flatten, length_flatten_blocks (allBlocks_chainEncBlocks hwf hk (allBlocks_blocks x hx)),
    length_chainEncBlocks, length_blocks, Nat.div_mul_cancel (Nat.dvd_of_mod_eq_zero hx)]

theorem length_chainDec (hy : y.length % cfg.blk = 0) : (chainDec cfg k y).length = y.length := by
  rw [chainDec_eq_flatten, length_flatten_blocks (allBlocks_chainDecBlocks hwf hk (allBlocks_blocks y hy)),
    length_chainDecBlocks, length_blocks, Nat.div_mul_cancel (Nat.dvd_of_mod_eq_zero hy)]

theorem chainDec_chainEnc (hok : cfg.keyOK k = true) (hx : x.length % cfg.blk = 0) :
    chainDec cfg k (chainEnc cfg k x) = x := by
  rw [chainDec_eq_flatten, blocks_chainEnc hwf hk hx,
    chainDecBlocks_chainEncBlocks hwf hk hok (allBlocks_blocks x hx), flatten_blocks hwf.blk_pos x hx]

theorem chainEnc_chainDec (hok : cfg.keyOK k = true) (hy : y.length % cfg.blk = 0) :
    chainEnc cfg k (chainDec cfg k y) = y := by
  rw [chainEnc_eq_flatten, blocks_chainDec hwf hk hy,
    chainEncBlocks_chainDecBlocks hwf hk hok (allBlocks_blocks y hy), flatten_blocks hwf.blk_pos y hy]

/-- The ciphertext of the first blocks depends on those blocks alone. -/
theorem take_chainEnc {n : Nat} (hx : x.length % cfg.blk = 0) (hn : n % cfg.blk = 0) (hle : n ≤ x.length) :
    (chainEnc cfg k x).take n = chainEnc cfg k (x.take n) := by
  have hlen : (x.take n).length = n := List.length_take_of_le hle
  have hfront : (x.take n).length % cfg.blk = 0 := by rw [hlen, hn]
  have hback : (x.drop n).length % cfg.blk = 0 := by
    rw [List.length_drop]
    exact Nat.mod_eq_zero_of_dvd (Nat.dvd_sub (Nat.dvd_of_mod_eq_zero hx) (Nat.dvd_of_mod_eq_zero hn))
  obtain ⟨zs, hzs⟩ := chainEncBlocks_append (cfg := cfg) k (blocks cfg (x.take n)) (blocks cfg (x.drop n))
  have hx' : chainEnc cfg k x = chainEnc cfg k (x.take n) ++ zs.flatten := by
    conv_lhs => rw [← List.take_append_drop n x]
    rw [chainEnc_eq_flatten, blocks_append hwf.blk_pos hfront hback, hzs, List.flatten_append, ← chainEnc_eq_flatten]
  rw [hx', List.take_left' ((length_chainEnc hwf hk hfront).trans hlen)]

end Key

/-! ### The two functions (41_crypto.md R140, R141) -/

/-- The checks of both functions, length first and key second (R155), before an output. -/
def lengthThenKey (malformed keyOk : Bool) (out : Bytes) : CrResult :=
  if malformed then .err .length else if !keyOk then .err .key else .ok out

theorem lengthThenKey_eq_length {m a : Bool} {o : Bytes} : lengthThenKey m a o = .err .length ↔ m = true := by
  cases m <;> cases a <;> simp [lengthThenKey]

theorem lengthThenKey_eq_key {m a : Bool} {o : Bytes} :
    lengthThenKey m a o = .err .key ↔ m = false ∧ a = false := by
  cases m <;> cases a <;> simp [lengthThenKey]

theorem lengthThenKey_eq_ok {m a : Bool} {o r : Bytes} :
    lengthThenKey m a o = .ok r ↔ m = false ∧ a = true ∧ o = r := by
  cases m <;> cases a <;> simp [lengthThenKey]

theorem crEncrypt_eq (p k : Bytes) : crEncrypt cfg p k =
    lengthThenKey (plainMalformed cfg p.length) (accepted cfg k) (chainEnc cfg k (pad cfg p)) := rfl

theorem crDecrypt_eq (c k : Bytes) : crDecrypt cfg c k =
    lengthThenKey (cipherMalformed cfg c.length) (accepted cfg k) (unpad cfg (chainDec cfg k c)) := rfl

theorem plainMalformed_false_iff (n : Nat) : plainMalformed cfg n = false ↔ (n + cfg.npad) % cfg.blk = 0 := by
  rw [← Bool.not_eq_true, plainMalformed_iff, not_not]

theorem cipherMalformed_false_iff (n : Nat) : cipherMalformed cfg n = false ↔ n % cfg.blk = 0 ∧ cfg.npad ≤ n := by
  rw [← Bool.not_eq_true, cipherMalformed_iff, not_or, not_not, Nat.not_lt]

/-- R131 spelled out. -/
theorem accepted_iff : accepted cfg k = true ↔ k.length = cfg.klen ∧ cfg.keyOK k = true := by
  simp [accepted]

theorem accepted_false_iff : accepted cfg k = false ↔ k.length ≠ cfg.klen ∨ cfg.keyOK k = false := by
  rw [← Bool.not_eq_true, accepted_iff, not_and_or, Bool.not_eq_true]

/-- When `cr_encrypt` succeeds, and with what. -/
theorem crEncrypt_eq_ok_iff : crEncrypt cfg p k = .ok c ↔ (p.length + cfg.npad) % cfg.blk = 0 ∧
    (k.length = cfg.klen ∧ cfg.keyOK k = true) ∧ chainEnc cfg k (pad cfg p) = c := by
  rw [crEncrypt_eq, lengthThenKey_eq_ok, plainMalformed_false_iff, accepted_iff]

/-- When `cr_decrypt` succeeds, and with what. -/
theorem crDecrypt_eq_ok_iff : crDecrypt cfg c k = .ok p ↔ (c.length % cfg.blk = 0 ∧ cfg.npad ≤ c.length) ∧
    (k.length = cfg.klen ∧ cfg.keyOK k = true) ∧ unpad cfg (chainDec cfg k c) = p := by
  rw [crDecrypt_eq, lengthThenKey_eq_ok, cipherMalformed_false_iff, accepted_iff]

/-- `cr_encrypt` adds the padding's length (R134). -/
theorem length_of_crEncrypt_eq_ok (hwf : cfg.WF) (h : crEncrypt cfg p k = .ok c) : c.length = p.length + cfg.npad := by
  obtain ⟨hlen, ⟨hk, -⟩, rfl⟩ := crEncrypt_eq_ok_iff.mp h
  rw [← length_pad] at hlen ⊢
  exact length_chainEnc hwf hk hlen

/-- `cr_decrypt` takes the padding's length away (R134). -/
theorem length_of_crDecrypt_eq_ok (hwf : cfg.WF) (h : crDecrypt cfg c k = .ok p) : p.length = c.length - cfg.npad := by
  obtain ⟨⟨hlen, -⟩, ⟨hk, -⟩, rfl⟩ := crDecrypt_eq_ok_iff.mp h
  rw [length_unpad, length_chainDec hwf hk hlen]

/-- The round trip of R152: decryption undoes chaining, then `unpad` undoes `pad`. -/
theorem crDecrypt_of_crEncrypt_eq_ok (hwf : cfg.WF) (h : crEncrypt cfg p k = .ok c) : crDecrypt cfg c k = .ok p := by
  have hc := length_of_crEncrypt_eq_ok hwf h
  obtain ⟨hlen, ⟨hk, hok⟩, rfl⟩ := crEncrypt_eq_ok_iff.mp h
  refine crDecrypt_eq_ok_iff.mpr ⟨⟨by rw [hc, hlen], by omega⟩, ⟨hk, hok⟩, ?_⟩
  rw [← length_pad] at hlen
  rw [chainDec_chainEnc hwf hk hok hlen, unpad_pad]

/-! ### What padding puts in the place of the removed bytes (41_crypto.md R156) -/

/-- Padding after unpadding gives the sequence back exactly when the removed bytes were the padding. -/
theorem pad_unpad_eq_iff (hle : cfg.npad ≤ x.length) : pad cfg (unpad cfg x) = x ↔
    ∀ j, x.length - cfg.npad ≤ j → j < x.length → x[j]? = some cfg.padByte := by
  have hdrop : (x.drop (x.length - cfg.npad)).length = cfg.npad := by rw [List.length_drop]; omega
  have hsplit : pad cfg (unpad cfg x) = x ↔ List.replicate cfg.npad cfg.padByte = x.drop (x.length - cfg.npad) := by
    conv_lhs => rhs; rw [← List.take_append_drop (x.length - cfg.npad) x]
    exact List.append_right_inj _
  rw [hsplit, eq_comm, List.eq_replicate_iff]
  simp only [hdrop, true_and, List.mem_iff_getElem?, List.getElem?_drop]
  constructor
  · intro h j hj hlt
    have hget : x[j]? = some x[j] := List.getElem?_eq_getElem hlt
    rw [hget, h x[j] ⟨j - (x.length - cfg.npad), by rw [Nat.add_sub_cancel' hj, hget]⟩]
  · rintro h v ⟨i, hi⟩
    have hlt : x.length - cfg.npad + i < x.length := (List.getElem?_eq_some_iff.mp hi).1
    exact Option.some.inj (hi.symm.trans (h _ (Nat.le_add_right _ _) hlt))

/-- Padding after unpadding keeps the length. -/
theorem length_pad_unpad (hle : cfg.npad ≤ x.length) : (pad cfg (unpad cfg x)).length = x.length := by
  rw [length_pad, length_unpad, Nat.sub_add_cancel hle]

/-- Padding after unpadding keeps what stands before the padding. -/
theorem take_pad_unpad {n : Nat} (hn : n ≤ x.length - cfg.npad) : (pad cfg (unpad cfg x)).take n = x.take n := by
  have hle : n ≤ (unpad cfg x).length := by rwa [length_unpad]
  rw [pad, List.take_append_of_le_length hle, unpad, List.take_take, Nat.min_eq_left hn]

section Key

variable (hwf : cfg.WF) (hk : k.length = cfg.klen) (hx : x.length % cfg.blk = 0) (hle : cfg.npad ≤ x.length)
include hwf hk hx hle

/-- Chaining tells the padding apart from any other last bytes, since it is injective under an accepted key. -/
theorem chainEnc_pad_unpad_eq_iff (hok : cfg.keyOK k = true) :
    chainEnc cfg k (pad cfg (unpad cfg x)) = chainEnc cfg k x ↔
      ∀ j, x.length - cfg.npad ≤ j → j < x.length → x[j]? = some cfg.padByte := by
  rw [← pad_unpad_eq_iff hle]
  refine ⟨fun he => ?_, fun he => by rw [he]⟩
  have hpad : (pad cfg (unpad cfg x)).length % cfg.blk = 0 := by rw [length_pad_unpad hle, hx]
  rw [← chainDec_chainEnc hwf hk hok hpad, he, chainDec_chainEnc hwf hk hok hx]

/-- The padding stands in the last block, so the ciphertext of the others does not depend on it. -/
theorem take_chainEnc_pad_unpad : (chainEnc cfg k (pad cfg (unpad cfg x))).take (x.length - cfg.blk) =
    (chainEnc cfg k x).take (x.length - cfg.blk) := by
  have hlen := length_pad_unpad hle
  have hlast : (x.length - cfg.blk) % cfg.blk = 0 :=
    Nat.mod_eq_zero_of_dvd (Nat.dvd_sub (Nat.dvd_of_mod_eq_zero hx) (Nat.dvd_refl _))
  have hlt := hwf.npad_lt
  rw [take_chainEnc hwf hk (by rw [hlen, hx]) hlast (by omega), take_pad_unpad (by omega),
    ← take_chainEnc hwf hk hx hlast (by omega)]

end Key

/-! ### Chaining block by block (41_crypto.md R144 to R147, R159) -/

/-- Exclusive or with zeros changes nothing. -/
theorem xorBytes_replicate_zero (d : Bytes) : xorBytes d (List.replicate d.length 0x00) = d := by
  induction d with
  | nil => rfl
  | cons v d ih => exact congrArg₂ List.cons BitVec.xor_zero ih

section Key

variable (hwf : cfg.WF) (hk : k.length = cfg.klen) (hx : x.length % cfg.blk = 0)
include hwf hk hx

theorem blockOf_ecbEnc {j : Nat} (hj : j < x.length / cfg.blk) :
    blockOf cfg (ecbEnc cfg k x) j = cfg.E k (blockOf cfg x j) := by
  rw [ecbEnc, blockOf_flatten (allBlocks_mapE hwf k hk (allBlocks_blocks x hx)) j
    (by rwa [List.length_map, length_blocks]), List.getElem_map, getElem_blocks]

theorem blockOf_ecbDec {j : Nat} (hj : j < x.length / cfg.blk) :
    blockOf cfg (ecbDec cfg k x) j = cfg.D k (blockOf cfg x j) := by
  rw [ecbDec, blockOf_flatten (allBlocks_mapD hwf k hk (allBlocks_blocks x hx)) j
    (by rwa [List.length_map, length_blocks]), List.getElem_map, getElem_blocks]

theorem blockOf_cbcEnc_eq_getElem {j : Nat} (hj : j < x.length / cfg.blk) : blockOf cfg (cbcEnc cfg k x) j =
    (cbcEncBlocks cfg k cfg.iv0 (blocks cfg x))[j]'(by rwa [length_cbcEncBlocks, length_blocks]) := by
  rw [cbcEnc, blockOf_flatten (allBlocks_cbcEnc hwf k hk hwf.iv0_length (allBlocks_blocks x hx))]

theorem blockOf_cbcDec_eq_getElem {j : Nat} (hj : j < x.length / cfg.blk) : blockOf cfg (cbcDec cfg k x) j =
    (cbcDecBlocks cfg k cfg.iv0 (blocks cfg x))[j]'(by rwa [length_cbcDecBlocks, length_blocks]) := by
  rw [cbcDec, blockOf_flatten (allBlocks_cbcDec hwf k hk hwf.iv0_length (allBlocks_blocks x hx))]

theorem blockOf_cbcEnc_zero (h : 0 < x.length / cfg.blk) :
    blockOf cfg (cbcEnc cfg k x) 0 = cfg.E k (xorBytes (blockOf cfg x 0) cfg.iv0) := by
  rw [blockOf_cbcEnc_eq_getElem hwf hk hx h, getElem_cbcEncBlocks_zero, getElem_blocks]

theorem blockOf_cbcEnc_succ {j : Nat} (h : j + 1 < x.length / cfg.blk) : blockOf cfg (cbcEnc cfg k x) (j + 1) =
    cfg.E k (xorBytes (blockOf cfg x (j + 1)) (blockOf cfg (cbcEnc cfg k x) j)) := by
  rw [blockOf_cbcEnc_eq_getElem hwf hk hx h, getElem_cbcEncBlocks_succ, getElem_blocks,
    blockOf_cbcEnc_eq_getElem hwf hk hx (Nat.lt_of_succ_lt h)]

theorem blockOf_cbcDec_zero (h : 0 < x.length / cfg.blk) :
    blockOf cfg (cbcDec cfg k x) 0 = xorBytes (cfg.D k (blockOf cfg x 0)) cfg.iv0 := by
  rw [blockOf_cbcDec_eq_getElem hwf hk hx h, getElem_cbcDecBlocks_zero, getElem_blocks]

theorem blockOf_cbcDec_succ {j : Nat} (h : j + 1 < x.length / cfg.blk) : blockOf cfg (cbcDec cfg k x) (j + 1) =
    xorBytes (cfg.D k (blockOf cfg x (j + 1))) (blockOf cfg x j) := by
  rw [blockOf_cbcDec_eq_getElem hwf hk hx h, getElem_cbcDecBlocks_succ, getElem_blocks, getElem_blocks]

/-- With `IV0` all zero the first block of CBC is that of ECB. -/
theorem blockOf_cbcEnc_zero_of_zero_iv (h : 0 < x.length / cfg.blk)
    (hiv : cfg.iv0 = List.replicate cfg.blk 0x00) :
    blockOf cfg (cbcEnc cfg k x) 0 = blockOf cfg (ecbEnc cfg k x) 0 := by
  rw [blockOf_cbcEnc_zero hwf hk hx h, blockOf_ecbEnc hwf hk hx h, hiv, ← length_blockOf x 0 hx h,
    xorBytes_replicate_zero]

theorem length_blockOf_cbcEnc {j : Nat} (hj : j < x.length / cfg.blk) :
    (blockOf cfg (cbcEnc cfg k x) j).length = cfg.blk := by
  rw [blockOf_cbcEnc_eq_getElem hwf hk hx hj]
  exact allBlocks_cbcEnc hwf k hk hwf.iv0_length (allBlocks_blocks x hx) _ (List.getElem_mem _)

end Key

/-- Under an accepted key, blocks chained to different values have different ciphertexts. -/
theorem E_xorBytes_ne (hwf : cfg.WF) (hk : k.length = cfg.klen) (hok : cfg.keyOK k = true) {d u v : Bytes}
    (hd : d.length = cfg.blk) (hu : u.length = cfg.blk) (hv : v.length = cfg.blk) (hne : u ≠ v) :
    cfg.E k (xorBytes d u) ≠ cfg.E k (xorBytes d v) := by
  intro he
  have hlen : ∀ w : Bytes, w.length = cfg.blk → (xorBytes d w).length = cfg.blk := fun w hw => by simp [hd, hw]
  have hxor := congrArg (cfg.D k) he
  rw [hwf.D_E k _ hk (hlen u hu) hok, hwf.D_E k _ hk (hlen v hv) hok] at hxor
  exact hne (xorBytes_inj_right d u v (hd.trans hu.symm) (hd.trans hv.symm) hxor)

/-- A configuration with another `IV0` of `BLK` bytes is well formed too. -/
theorem wf_with_iv0 (hwf : cfg.WF) {iv : Bytes} (hiv : iv.length = cfg.blk) : { cfg with iv0 := iv }.WF where
  sized := by
    have hb := hwf.bounds
    simp only [OpenParams.sized, Bool.and_eq_true, decide_eq_true_eq]
    omega
  E_length := hwf.E_length
  D_length := hwf.D_length
  D_E := hwf.D_E
  E_D := hwf.E_D

end Rules

/-! ### The obligations -/

/-- Settles O26: on the lists of blocks each direction undoes the other, in ECB block by block and in CBC by induction
with the chaining value kept. -/
theorem chainingRoundTrip : Obligations.ChainingRoundTrip := by
  intro cfg hwf k x hk hok hx
  refine ⟨fun hm => ?_, fun hm => ?_, chainDec_chainEnc hwf hk hok hx, chainEnc_chainDec hwf hk hok hx,
    length_chainEnc hwf hk hx, length_chainDec hwf hk hx⟩
  · rw [chainEnc, chainDec, hm]
    exact ⟨rfl, rfl⟩
  · rw [chainEnc, chainDec, hm]
    exact ⟨rfl, rfl⟩

/-- Settles O28: decryption undoes the chaining and then the padding. -/
theorem decryptUndoesEncrypt : Obligations.DecryptUndoesEncrypt :=
  fun _ hwf _ _ _ h => crDecrypt_of_crEncrypt_eq_ok hwf h

/-- Settles O29: re-encryption chains the decrypted bytes with the padding in the place of the removed ones. Chaining
is injective on whole blocks, and the ciphertext of all blocks but the last does not depend on the last. -/
theorem reencryptionHoldsUpToPadding : Obligations.ReencryptionHoldsUpToPadding := by
  intro cfg hwf p k c h
  obtain ⟨⟨hc, hnc⟩, ⟨hk, hok⟩, rfl⟩ := crDecrypt_eq_ok_iff.mp h
  have hx : (chainDec cfg k c).length = c.length := length_chainDec hwf hk hc
  have hback : chainEnc cfg k (chainDec cfg k c) = c := chainEnc_chainDec hwf hk hok hc
  rw [← hx] at hc hnc
  have hiff := chainEnc_pad_unpad_eq_iff hwf hk hc hnc hok
  have htake := take_chainEnc_pad_unpad hwf hk hc hnc
  have hpad := length_pad_unpad hnc
  have hwhole : (pad cfg (unpad cfg (chainDec cfg k c))).length % cfg.blk = 0 := by rw [hpad, hc]
  rw [hback, hx] at hiff htake
  refine ⟨_, crEncrypt_eq_ok_iff.mpr ⟨by rwa [length_pad] at hwhole, ⟨hk, hok⟩, rfl⟩, hiff, ?_, htake, fun h0 => ?_⟩
  · rw [length_chainEnc hwf hk hwhole, hpad, hx]
  · exact hiff.mpr fun j hj hlt => by omega

/-- Settles O25: `unpad` takes away as many bytes as `pad` adds, and chaining keeps the length. -/
theorem paddingIsReversibleAndFixed : Obligations.PaddingIsReversibleAndFixed :=
  fun _ hwf p _ _ => ⟨unpad_pad p, rfl, length_of_crEncrypt_eq_ok hwf, length_of_crDecrypt_eq_ok hwf⟩

/-- Settles O27: each function fails by its first failing check, and each check is spelled out. -/
theorem cryptoFunctionsFailExactlyWhen : Obligations.CryptoFunctionsFailExactlyWhen := by
  intro cfg p k
  refine ⟨?_, ?_, ?_, ?_⟩
  · rw [crEncrypt_eq, lengthThenKey_eq_length, plainMalformed_iff]
  · rw [crEncrypt_eq, lengthThenKey_eq_key, plainMalformed_false_iff, accepted_false_iff]
  · rw [crDecrypt_eq, lengthThenKey_eq_length, cipherMalformed_iff]
  · rw [crDecrypt_eq, lengthThenKey_eq_key, cipherMalformed_false_iff, accepted_false_iff, and_assoc]

/-- Settles O30: ECB maps the cipher over the blocks. -/
theorem ecbWorksBlockByBlock : Obligations.EcbWorksBlockByBlock :=
  fun _ hwf _ _ hk hx _ hj => ⟨blockOf_ecbEnc hwf hk hx hj, blockOf_ecbDec hwf hk hx hj⟩

/-- Settles O31: the two recurrences at the first block and at a later one. -/
theorem cbcWorksByRecurrence : Obligations.CbcWorksByRecurrence := by
  intro cfg hwf k x hk hx j hj
  have hpos : 0 < x.length / cfg.blk := by omega
  refine ⟨?_, ?_, blockOf_cbcEnc_zero_of_zero_iv hwf hk hx hpos⟩
  · cases j with
    | zero => exact blockOf_cbcEnc_zero hwf hk hx hj
    | succ j => exact blockOf_cbcEnc_succ hwf hk hx hj
  · cases j with
    | zero => exact blockOf_cbcDec_zero hwf hk hx hj
    | succ j => exact blockOf_cbcDec_succ hwf hk hx hj

/-- Settles O32: plaintext block `l` depends on the ciphertext blocks `l` and `l - 1` alone. -/
theorem cbcDecryptionErrorStaysLocal : Obligations.CbcDecryptionErrorStaysLocal := by
  intro cfg hwf k x y hk hx hlen j hsame l hl hlj hlj'
  have hy : y.length % cfg.blk = 0 := by rw [hlen, hx]
  have hly : l < y.length / cfg.blk := by rwa [hlen]
  cases l with
  | zero => rw [blockOf_cbcDec_zero hwf hk hy hly, blockOf_cbcDec_zero hwf hk hx hl, hsame 0 hl hlj]
  | succ l =>
    rw [blockOf_cbcDec_succ hwf hk hy hly, blockOf_cbcDec_succ hwf hk hx hl, hsame (l + 1) hl hlj,
      hsame l (by omega) (by omega)]

/-- Settles O33, by induction on the block: different chaining values give different ciphertext blocks, which are the
chaining values of the next blocks. -/
theorem cbcInitialValueReachesEveryBlock : Obligations.CbcInitialValueReachesEveryBlock := by
  intro cfg hwf k x iv hk hok hx hiv hne j hj
  have hwf' := wf_with_iv0 hwf hiv
  have hd := length_blockOf x j hx hj
  induction j with
  | zero =>
    rw [blockOf_cbcEnc_zero hwf hk hx hj]
    exact (blockOf_cbcEnc_zero hwf' hk hx hj).trans_ne (E_xorBytes_ne hwf hk hok hd hiv hwf.iv0_length hne)
  | succ j ih =>
    have hj' : j < x.length / cfg.blk := Nat.lt_of_succ_lt hj
    rw [blockOf_cbcEnc_succ hwf hk hx hj]
    exact (blockOf_cbcEnc_succ hwf' hk hx hj).trans_ne (E_xorBytes_ne hwf hk hok hd
      (length_blockOf_cbcEnc hwf' hk hx hj') (length_blockOf_cbcEnc hwf hk hx hj')
      (ih hj' (length_blockOf x j hx hj')))

end Sys2Proof.Machine
end

section
/-! PROOFS of the family 41_crypto.md, the commands: the checks of `CR.ENCRYPT` and `CR.DECRYPT` (R148, R149, R153 to
R155), what they deliver (R150, R151), the round trip in the shell (R152), and the key they consume (R160). -/

namespace Sys2Proof.Machine

section Rules

variable {cfg : Cfg} {b : Block}

/-! ### The checks of the commands (41_crypto.md R148, R149, R153 to R155) -/

/-- The check of `CR.ENCRYPT` that fails first is length, capacity or key; the first two say what they found. -/
theorem encryptCause_eq_some {cause : CryptoCause} (h : b.encryptCause cfg = some cause) :
    cause = .key ∨ (cause = .length ∧ (b.len.toNat + cfg.npad) % cfg.blk ≠ 0) ∨
      (cause = .capacity ∧ 255 < b.len.toNat + cfg.npad) := by
  unfold Block.encryptCause at h
  split at h
  · next hm =>
    cases h
    exact .inr (.inl ⟨rfl, (plainMalformed_iff _).mp hm⟩)
  · split at h
    · next hcap =>
      cases h
      exact .inr (.inr ⟨rfl, hcap⟩)
    · split at h
      · cases h
        exact .inl rfl
      · cases h

/-- The check of `CR.DECRYPT` that fails first is length, which says what it found, or key. -/
theorem decryptCause_eq_some {cause : CryptoCause} (h : b.decryptCause cfg = some cause) :
    cause = .key ∨ (cause = .length ∧ (b.len.toNat % cfg.blk ≠ 0 ∨ b.len.toNat < cfg.npad)) := by
  unfold Block.decryptCause at h
  split at h
  · next hm =>
    cases h
    exact .inr ⟨rfl, (cipherMalformed_iff _).mp hm⟩
  · split at h
    · cases h
      exact .inl rfl
    · cases h

/-- `CR.ENCRYPT` succeeds exactly when its checks pass. -/
theorem crEncrypt_err_eq_false_iff : (b.crEncrypt cfg).err = false ↔ b.EncryptReady cfg := by
  rw [← encryptCause_none_iff]
  rcases crEncrypt_cases (cfg := cfg) b with ⟨cause, hc, e⟩ | ⟨hc, e⟩ <;> simp [hc, e]

/-- `CR.DECRYPT` succeeds exactly when its checks pass. -/
theorem crDecrypt_err_eq_false_iff : (b.crDecrypt cfg).err = false ↔ b.DecryptReady cfg := by
  rw [← decryptCause_none_iff]
  rcases crDecrypt_cases (cfg := cfg) b with ⟨cause, hc, e⟩ | ⟨hc, e⟩ <;> simp [hc, e]

/-! ### What a successful command delivers (41_crypto.md R150, R151) -/

/-- Every byte of `BUF` after a delivery: the output from index 0, and above it what stood there. -/
theorem deliver_read (hb : b.buf.wf = true) {out : Bytes} (hout : out.length ≤ 255) (n j : Nat) :
    (b.deliver out n).buf.read j = (out[j]?).getD (b.buf.read j) := by
  rw [Block.deliver_buf, Memory.read_writeAll hb 0 j out (by omega), if_pos (Nat.zero_le j), Nat.sub_zero]

theorem deliver_read_below (hb : b.buf.wf = true) {out : Bytes} (hout : out.length ≤ 255) (n : Nat) {j : Nat}
    (hj : j < out.length) : some ((b.deliver out n).buf.read j) = out[j]? := by
  rw [deliver_read hb hout, List.getElem?_eq_getElem hj, Option.getD_some]

theorem deliver_read_above (hb : b.buf.wf = true) {out : Bytes} (hout : out.length ≤ 255) (n : Nat) {j : Nat}
    (hj : out.length ≤ j) : (b.deliver out n).buf.read j = b.buf.read j := by
  rw [deliver_read hb hout, List.getElem?_eq_none hj, Option.getD_none]

/-- The operand after a delivery: the first `n` bytes of the output. -/
theorem deliver_operand (hb : b.buf.wf = true) {out : Bytes} (hout : out.length ≤ 255) {n : Nat}
    (hn : n ≤ out.length) : (b.deliver out n).operand = out.take n := by
  rw [Block.operand, Block.deliver_len, toNat_byte (by omega), Block.deliver_buf,
    Memory.slice_writeAll hb out (by omega) n hn]

/-- Whatever its outcome, a `CR.*` command clears the key bytes (41_crypto.md R160). -/
theorem execute_crypto_key {i : Instr} (hi : i = .crEncrypt ∨ i = .crDecrypt) (cfg : Cfg) (b : Block) :
    (b.execute cfg i).key = Vector.replicate 64 0x00 := by
  rcases hi with rfl | rfl
  · rcases crEncrypt_cases (cfg := cfg) b with ⟨cause, -, e⟩ | ⟨-, e⟩ <;> simp [Block.execute, e]
  · rcases crDecrypt_cases (cfg := cfg) b with ⟨cause, -, e⟩ | ⟨-, e⟩ <;> simp [Block.execute, e]

/-- Every slot of the key store is empty after a `CR.*` command. -/
theorem execute_crypto_keyStore {i : Instr} (hi : i = .crEncrypt ∨ i = .crDecrypt) (cfg : Cfg) (b : Block) (j : Nat)
    (h : j < 64) : (b.execute cfg i).key[j] = 0x00 ∧ (b.execute cfg i).kw[j] = false := by
  simp [execute_crypto_key hi, execute_crypto_kw hi]

/-- The whole effect of a command that delivers an output, and its frame. -/
theorem exec_of_deliver {i : Instr} (hi : i = .crEncrypt ∨ i = .crDecrypt) {s : State} {out : Bytes} {n : Nat}
    (he : s.block.execute Config.cfg i = s.block.deliver out n) (hb : s.block.buf.wf = true) (hout : out.length ≤ 255)
    (hn : n ≤ out.length) : ∃ t, exec i s = .next t ∧
      t.block.done = true ∧ t.block.err = false ∧ t.block.errc = 0x00 ∧ t.block.res = s.block.res ∧
      t.block.len.toNat = n ∧ (∀ j, (h : j < 64) → t.block.key[j] = 0x00 ∧ t.block.kw[j] = false) ∧
      (∀ j, j < out.length → some (t.block.buf.read j) = out[j]?) ∧
      (∀ j, out.length ≤ j → t.block.buf.read j = s.block.buf.read j) ∧ t.script = s.script ∧ t.reads = s.reads := by
  refine ⟨_, exec_eq i s, ?_⟩
  rw [State.withBlock_block, he]
  exact ⟨rfl, rfl, rfl, rfl, toNat_byte (by omega), he ▸ execute_crypto_keyStore hi Config.cfg s.block,
    fun _ => deliver_read_below hb hout n, fun _ => deliver_read_above hb hout n, rfl, rfl⟩

/-- The block with the key store of another: the key loaded again after a command has cleared it. -/
def Block.withKeyOf (b c : Block) : Block := { b with key := c.key, kw := c.kw }

/-- After a successful `CR.ENCRYPT` the block that has its key back is ready for `CR.DECRYPT`. -/
theorem decryptReady_of_encrypted (h : b.EncryptReady cfg) :
    ((b.crEncrypt cfg).withKeyOf b).DecryptReady cfg := by
  have hlen : ((b.crEncrypt cfg).withKeyOf b).len.toNat = b.len.toNat + cfg.npad := by
    have hfits := h.fits
    rw [Block.withKeyOf, crEncrypt_of_ready ((encryptCause_none_iff b).mpr h), Block.deliver_len, toNat_byte (by omega)]
  exact ⟨by rw [hlen, h.wholeBlocks], (Nat.le_add_left _ _).trans_eq hlen.symm, h.keyWritten, h.keyAccepted⟩

section Ready

variable (hwf : cfg.WF)
include hwf

/-- In the shell `CR.ENCRYPT`'s function succeeds, with the ciphertext. -/
theorem crEncrypt_operand (h : b.EncryptReady cfg) :
    crEncrypt cfg b.operand (b.keyOperand cfg) = .ok (b.ciphertext cfg) := by
  refine crEncrypt_eq_ok_iff.mpr ⟨?_, ⟨length_keyOperand hwf b, h.keyAccepted⟩, rfl⟩
  rw [length_operand, h.wholeBlocks]

/-- In the shell `CR.DECRYPT`'s function succeeds, with the decrypted bytes less the padding. -/
theorem crDecrypt_operand (h : b.DecryptReady cfg) :
    crDecrypt cfg b.operand (b.keyOperand cfg) = .ok (unpad cfg (b.paddedPlaintext cfg)) := by
  refine crDecrypt_eq_ok_iff.mpr ⟨?_, ⟨length_keyOperand hwf b, h.keyAccepted⟩, rfl⟩
  rw [length_operand]
  exact ⟨h.wholeBlocks, h.holdsPadding⟩

theorem length_ciphertext (h : b.EncryptReady cfg) : (b.ciphertext cfg).length = b.len.toNat + cfg.npad := by
  rw [length_of_crEncrypt_eq_ok hwf (crEncrypt_operand hwf h), length_operand]

theorem length_paddedPlaintext (h : b.DecryptReady cfg) : (b.paddedPlaintext cfg).length = b.len.toNat := by
  rw [Block.paddedPlaintext, length_chainDec hwf (length_keyOperand hwf b)]
  · exact length_operand b
  · rw [length_operand, h.wholeBlocks]

/-- `CR.ENCRYPT`'s checks pass exactly when the key is complete and `cr_encrypt` gives at most 255 bytes (R150). -/
theorem encryptReady_iff : b.EncryptReady cfg ↔ b.keyComplete cfg = true ∧
    ∃ c : Bytes, c.length ≤ 255 ∧ crEncrypt cfg b.operand (b.keyOperand cfg) = .ok c := by
  rw [keyComplete_iff]
  constructor
  · intro h
    exact ⟨h.keyWritten, _, (length_ciphertext hwf h).trans_le h.fits, crEncrypt_operand hwf h⟩
  · rintro ⟨hkw, c, hle, hc⟩
    obtain ⟨hlen, ⟨-, hok⟩, -⟩ := crEncrypt_eq_ok_iff.mp hc
    rw [length_of_crEncrypt_eq_ok hwf hc, length_operand] at hle
    rw [length_operand] at hlen
    exact ⟨hlen, hle, hkw, hok⟩

/-- `CR.DECRYPT`'s checks pass exactly when the key is complete and `cr_decrypt` succeeds (R151). -/
theorem decryptReady_iff : b.DecryptReady cfg ↔ b.keyComplete cfg = true ∧
    ∃ p : Bytes, crDecrypt cfg b.operand (b.keyOperand cfg) = .ok p := by
  rw [keyComplete_iff]
  constructor
  · intro h
    exact ⟨h.keyWritten, _, crDecrypt_operand hwf h⟩
  · rintro ⟨hkw, p, hp⟩
    obtain ⟨⟨hlen, hpad⟩, ⟨-, hok⟩, -⟩ := crDecrypt_eq_ok_iff.mp hp
    rw [length_operand] at hlen hpad
    exact ⟨hlen, hpad, hkw, hok⟩

/-- After a successful `CR.ENCRYPT` the operand is what `cr_encrypt` gives. -/
theorem operand_crEncrypt (hb : b.buf.wf = true) (h : b.EncryptReady cfg) :
    (b.crEncrypt cfg).operand = b.ciphertext cfg := by
  have hlen := length_ciphertext hwf h
  have hfits := h.fits
  rw [crEncrypt_of_ready ((encryptCause_none_iff b).mpr h), deliver_operand hb (by omega) hlen.ge, ← hlen,
    List.take_length]

/-- After a successful `CR.DECRYPT` the operand is what `cr_decrypt` gives. -/
theorem operand_crDecrypt (hb : b.buf.wf = true) (h : b.DecryptReady cfg) :
    (b.crDecrypt cfg).operand = unpad cfg (b.paddedPlaintext cfg) := by
  have hlen := length_paddedPlaintext hwf h
  have hbyte := b.len.isLt
  rw [crDecrypt_of_ready ((decryptCause_none_iff b).mpr h), deliver_operand hb (by omega) (by omega), ← hlen, unpad]

/-- In the shell, with the key put back after `CR.ENCRYPT`, `CR.DECRYPT` gives the operand back (R152). -/
theorem operand_decrypt_encrypted (hb : b.buf.wf = true) (h : b.EncryptReady cfg) :
    (((b.crEncrypt cfg).withKeyOf b).crDecrypt cfg).operand = b.operand := by
  have hready := decryptReady_of_encrypted h
  have hplain : crDecrypt cfg (b.crEncrypt cfg).operand (b.keyOperand cfg) = _ := crDecrypt_operand hwf hready
  have hback := crDecrypt_of_crEncrypt_eq_ok hwf (crEncrypt_operand hwf h)
  rw [operand_crEncrypt hwf hb h, hback] at hplain
  have hbuf : ((b.crEncrypt cfg).withKeyOf b).buf.wf = true := wf_execute hb .crEncrypt
  rw [operand_crDecrypt hwf hbuf hready]
  exact (CrResult.ok.inj hplain).symm

end Ready

/-- Without a complete key no `CR.*` command succeeds; it reports 0x02, or its own failing length or capacity check. -/
theorem crEncrypt_of_keyIncomplete (h : b.keyComplete cfg = false) : (b.crEncrypt cfg).err = true ∧
    ((b.crEncrypt cfg).errc = 0x02 ∨
      ((b.crEncrypt cfg).errc = 0x01 ∧ (b.len.toNat + cfg.npad) % cfg.blk ≠ 0) ∨
      ((b.crEncrypt cfg).errc = 0x03 ∧ 255 < b.len.toNat + cfg.npad)) := by
  rcases crEncrypt_cases (cfg := cfg) b with ⟨cause, hc, e⟩ | ⟨hc, -⟩
  · rw [e, Block.raise_errc]
    refine ⟨rfl, ?_⟩
    rcases encryptCause_eq_some hc with rfl | ⟨rfl, hlen⟩ | ⟨rfl, hcap⟩
    · exact .inl rfl
    · exact .inr (.inl ⟨rfl, hlen⟩)
    · exact .inr (.inr ⟨rfl, hcap⟩)
  · have hkw := ((encryptCause_none_iff b).mp hc).keyWritten
    rw [(keyComplete_iff b).mpr hkw] at h
    cases h

theorem crDecrypt_of_keyIncomplete (h : b.keyComplete cfg = false) : (b.crDecrypt cfg).err = true ∧
    ((b.crDecrypt cfg).errc = 0x02 ∨
      ((b.crDecrypt cfg).errc = 0x01 ∧ (b.len.toNat % cfg.blk ≠ 0 ∨ b.len.toNat < cfg.npad))) := by
  rcases crDecrypt_cases (cfg := cfg) b with ⟨cause, hc, e⟩ | ⟨hc, -⟩
  · rw [e, Block.raise_errc]
    refine ⟨rfl, ?_⟩
    rcases decryptCause_eq_some hc with rfl | ⟨rfl, hlen⟩
    · exact .inl rfl
    · exact .inr ⟨rfl, hlen⟩
  · have hkw := ((decryptCause_none_iff b).mp hc).keyWritten
    rw [(keyComplete_iff b).mpr hkw] at h
    cases h

/-- Every command byte but those of `CR.*` and `SRST` leaves the key store alone (41_crypto.md R160). -/
theorem trigger_keepsKeyStore {v : Byte} (hv : ¬ isCryptoCommand v) (hs : decode v ≠ .command .srst) :
    (b.trigger cfg v).key = b.key ∧ (b.trigger cfg v).kw = b.kw := by
  unfold Block.trigger
  cases hd : decode v with
  | illegal w => exact ⟨rfl, rfl⟩
  | command i =>
    cases i with
    | csCompute => exact ⟨rfl, rfl⟩
    | csValidate => exact ⟨rfl, rfl⟩
    | crEncrypt => exact absurd (.inl hd) hv
    | crDecrypt => exact absurd (.inr hd) hv
    | srst => exact absurd hd hs

end Rules

/-! ### The obligations -/

/-- Settles O34: when its checks pass the command delivers the ciphertext, which has `LEN + NPAD` bytes. -/
theorem encryptCommandDeliversCiphertext : Obligations.EncryptCommandDeliversCiphertext := by
  intro s h hb
  have hlen : (s.block.ciphertext Config.cfg).length = _ := length_ciphertext Config.cfg_wf h
  have hfits := h.fits
  obtain ⟨t, ht, hdone, herr, herrc, hres, hlent, hkey, hbelow, habove, hhost⟩ := exec_of_deliver (.inl rfl)
    (crEncrypt_of_ready ((encryptCause_none_iff _).mpr h)) hb (by omega) hlen.ge
  rw [hlen] at hbelow habove
  exact ⟨t, ht, hdone, herr, herrc, hres, hlent, hkey, hlen, hbelow, habove, hhost⟩

/-- Settles O35: when its checks pass the command delivers the decrypted bytes, `LEN` of them. -/
theorem decryptCommandDeliversPlaintext : Obligations.DecryptCommandDeliversPlaintext := by
  intro s h hb
  have hlen : (s.block.paddedPlaintext Config.cfg).length = _ := length_paddedPlaintext Config.cfg_wf h
  have hbyte := s.block.len.isLt
  obtain ⟨t, ht, hdone, herr, herrc, hres, hlent, hkey, hbelow, habove, hhost⟩ := exec_of_deliver (.inr rfl)
    (crDecrypt_of_ready ((decryptCause_none_iff _).mpr h)) hb (by omega) (by omega)
  rw [hlen] at hbelow habove
  exact ⟨t, ht, hdone, herr, herrc, hres, hlent, hkey, hlen, hbelow, habove, hhost⟩

/-- Settles O37: a command's checks are those of its function, with the complete key and the 255 bytes of `BUF`. -/
theorem cryptoCommandsAgreeWithFunctions : Obligations.CryptoCommandsAgreeWithFunctions := by
  intro s hb
  have hwf := Config.cfg_wf
  refine ⟨⟨_, exec_eq .crEncrypt s, ?_, fun c he hc => ?_⟩, ⟨_, exec_eq .crDecrypt s, ?_, fun p he hp => ?_⟩⟩
  · exact crEncrypt_err_eq_false_iff.trans (encryptReady_iff hwf)
  · have hready := crEncrypt_err_eq_false_iff.mp he
    rw [crEncrypt_operand hwf hready] at hc
    cases hc
    exact operand_crEncrypt hwf hb hready
  · exact crDecrypt_err_eq_false_iff.trans (decryptReady_iff hwf)
  · have hready := crDecrypt_err_eq_false_iff.mp he
    rw [crDecrypt_operand hwf hready] at hp
    cases hp
    exact operand_crDecrypt hwf hb hready

/-- Settles O38: the key store is empty after either command, so it is not complete when the next one checks it. -/
theorem cryptoCommandConsumesKey : Obligations.CryptoCommandConsumesKey := by
  refine ⟨fun i s hi => ?_, fun v s t hv hs ht => ?_⟩
  · have hempty : (s.block.execute Config.cfg i).keyComplete Config.cfg = false :=
      keyComplete_clear Config.cfg_wf _ (execute_crypto_kw hi Config.cfg s.block)
    refine ⟨_, exec_eq i s, execute_crypto_keyStore hi Config.cfg s.block, hempty, fun i2 hi2 => ⟨_, exec_eq i2 _, ?_⟩⟩
    rcases hi2 with rfl | rfl
    · obtain ⟨herr, hcode⟩ := crEncrypt_of_keyIncomplete hempty
      refine ⟨herr, ?_⟩
      rcases hcode with hkey | hlen | hcap
      · exact .inl hkey
      · exact .inr (.inl ⟨rfl, hlen⟩)
      · exact .inr (.inr (.inl ⟨rfl, hcap⟩))
    · obtain ⟨herr, hcode⟩ := crDecrypt_of_keyIncomplete hempty
      refine ⟨herr, ?_⟩
      rcases hcode with hkey | hlen
      · exact .inl hkey
      · exact .inr (.inr (.inr ⟨rfl, hlen⟩))
  · rw [command_eq] at ht
    cases ht
    exact trigger_keepsKeyStore hv hs

/-- Settles O40: the operand after encryption is the ciphertext `ok(c)` of the function, and the key put back is the one
it was made with, so the round trip of the functions gives the operand back, and `LEN` with it. -/
theorem encryptThenDecryptRestoresOperand : Obligations.EncryptThenDecryptRestoresOperand := by
  intro s h hb
  have hready := decryptReady_of_encrypted h
  have hoperand := operand_decrypt_encrypted Config.cfg_wf hb h
  have hlen := congrArg List.length hoperand
  rw [length_operand, length_operand] at hlen
  exact ⟨_, exec_eq .crEncrypt s, _, exec_eq .crDecrypt _, crDecrypt_err_eq_false_iff.mpr hready,
    BitVec.eq_of_toNat_eq hlen, hoperand⟩

end Sys2Proof.Machine
end

section
/-! PROOFS of the family 42_control.md: the illegal command (R182), in the machine's step and in `STATUS`. -/

namespace Sys2Proof.Machine

section Rules

variable {cfg : Cfg}

/-- A byte that decodes to no command triggers `fail(0x7F)` (30_encoding.md R74). -/
theorem trigger_of_illegal {v w : Byte} (h : decode v = .illegal w) (b : Block) :
    b.trigger cfg v = b.illegalCommand := by
  rw [Block.trigger, h]

/-- After an illegal command `DONE` and `ERR` are 1 and `KV` is what it was (10_state.md R23, R43). -/
theorem status_illegalCommand (b : Block) :
    b.illegalCommand.status cfg = if b.keyComplete cfg then 0x07 else 0x03 := by
  have hflags : b.illegalCommand.status cfg = flagBit 0 true ||| flagBit 1 true ||| flagBit 2 (b.keyComplete cfg) := rfl
  rw [hflags]
  cases b.keyComplete cfg with
  | false => decide
  | true => decide

end Rules

/-! ### The obligations -/

/-- Settles O4: a byte that is none of the five opcodes is illegal, and the step is then the block's report. -/
theorem illegalCommandOnlyReports : Obligations.IllegalCommandOnlyReports := by
  intro s v rest hs h01 h02 h10 h11 hFF
  obtain ⟨-, -, -, -, -, hillegal⟩ := opcodeMapWordsDecode
  have hstep : step s = .next { s with script := rest, block := s.block.illegalCommand } := by
    rw [step_command hs, command_eq, trigger_of_illegal (hillegal v h01 h02 h10 h11 hFF)]
    rfl
  exact ⟨_, hstep, rfl, rfl, rfl, status_illegalCommand s.block⟩

end Sys2Proof.Machine
end

section
/-! PROOFS of the family 60_exceptions.md: every step has a next state (R209), the first failing check of a `CR.*`
command and what a failure leaves unchanged (R203, R205, R206), and the step and the run as the block's transaction
function and its fold (R216). -/

namespace Sys2Proof.Machine

section Rules

variable {cfg : Cfg} {b : Block}

/-! ### The step and the run (60_exceptions.md R216) -/

/-- With a script not at its end, a step is the block's transaction on the script's first action. -/
theorem step_transact {s : State} {x : HostAction} {rest : List HostAction} (hs : s.script = x :: rest) :
    step s = .next { block := (s.block.transact Config.cfg x).1, script := rest,
                     reads := s.reads ++ (s.block.transact Config.cfg x).2.toList } := by
  rw [step_cons s x rest hs, act_eq]

/-- A run whose first step has a next state goes on from there. -/
theorem core_run_succ {M : Host.Core} {s t : M.State} (h : M.step s = .next t) (k : Nat) :
    M.run (k + 1) s = M.run k t := by
  simp only [Host.Core.run, h]

/-- As many steps as the script has actions are the fold of the transaction function over it, from any block and after
any earlier reads. -/
theorem core_run_script (script : List HostAction) (b : Block) (reads : List Byte) :
    Sys2Proof.core.run script.length { block := b, script := script, reads := reads } =
      .next { block := (b.run Config.cfg script).1, script := [], reads := reads ++ (b.run Config.cfg script).2 } := by
  induction script generalizing b reads with
  | nil =>
    rw [Block.run, List.append_nil]
    rfl
  | cons x rest ih =>
    rw [List.length_cons, core_run_succ (M := Sys2Proof.core) (step_transact rfl), ih, Block.run, List.append_assoc]

/-! ### The first failing check (60_exceptions.md R205) -/

theorem encryptCause_eq_length (hlen : (b.len.toNat + cfg.npad) % cfg.blk ≠ 0) :
    b.encryptCause cfg = some .length := by
  rw [Block.encryptCause, if_pos ((plainMalformed_iff _).mpr hlen)]

theorem encryptCause_eq_capacity (hlen : (b.len.toNat + cfg.npad) % cfg.blk = 0)
    (hcap : 255 < b.len.toNat + cfg.npad) : b.encryptCause cfg = some .capacity := by
  rw [Block.encryptCause, if_neg (ne_true_of_eq_false ((plainMalformed_false_iff _).mpr hlen)), if_pos hcap]

theorem encryptCause_eq_key (hlen : (b.len.toNat + cfg.npad) % cfg.blk = 0) (hfit : b.len.toNat + cfg.npad ≤ 255)
    (hkey : b.keyRejected cfg = true) : b.encryptCause cfg = some .key := by
  rw [Block.encryptCause, if_neg (ne_true_of_eq_false ((plainMalformed_false_iff _).mpr hlen)),
    if_neg (not_lt.mpr hfit), if_pos hkey]

theorem decryptCause_eq_length (hlen : b.len.toNat % cfg.blk ≠ 0 ∨ b.len.toNat < cfg.npad) :
    b.decryptCause cfg = some .length := by
  rw [Block.decryptCause, if_pos ((cipherMalformed_iff _).mpr hlen)]

theorem decryptCause_eq_key (hlen : b.len.toNat % cfg.blk = 0) (hpad : cfg.npad ≤ b.len.toNat)
    (hkey : b.keyRejected cfg = true) : b.decryptCause cfg = some .key := by
  rw [Block.decryptCause, if_neg (ne_true_of_eq_false ((cipherMalformed_false_iff _).mpr ⟨hlen, hpad⟩)),
    if_pos hkey]

/-! ### What a failure leaves unchanged (60_exceptions.md R203, R204, R206) -/

/-- A command that ends with `ERR = 1` has raised a `CryptoError`: the other commands report success or reset. -/
theorem execute_eq_raise_of_err {i : Instr} (h : (b.execute cfg i).err = true) :
    ∃ cause, b.execute cfg i = b.raiseCryptoError cause := by
  cases i with
  | csCompute => cases h
  | csValidate => cases h
  | crEncrypt =>
    rcases crEncrypt_cases (cfg := cfg) b with ⟨cause, -, e⟩ | ⟨-, e⟩
    · exact ⟨cause, e⟩
    · rw [Block.execute, e] at h
      cases h
  | crDecrypt =>
    rcases crDecrypt_cases (cfg := cfg) b with ⟨cause, -, e⟩ | ⟨-, e⟩
    · exact ⟨cause, e⟩
    · rw [Block.execute, e] at h
      cases h
  | srst => cases h

/-- A command byte that ends with `ERR = 1` has raised a `CryptoError` or is illegal. -/
theorem trigger_eq_raise_or_illegal_of_err {v : Byte} (h : (b.trigger cfg v).err = true) :
    (∃ cause, b.trigger cfg v = b.raiseCryptoError cause) ∨ b.trigger cfg v = b.illegalCommand := by
  cases hd : decode v with
  | command i =>
    simp only [Block.trigger, hd] at h ⊢
    exact .inl (execute_eq_raise_of_err h)
  | illegal w => exact .inr (trigger_of_illegal hd b)

end Rules

/-! ### The obligations -/

/-- Settles O49: the induction over the script, at the state's own block and reads. -/
theorem runIsFoldOverScript : Obligations.RunIsFoldOverScript :=
  fun s => core_run_script s.script s.block s.reads

/-- Settles O48: the step takes the first action off the script and performs it as `Block.transact` does. -/
theorem stepMatchesTransaction : Obligations.StepMatchesTransaction :=
  fun _ _ _ hs => step_transact hs

/-- Settles O8: a step idles or performs the script's first action; a command byte or a command acts on the block. -/
theorem everyStepHasNextState : Obligations.EveryStepHasNextState := by
  refine ⟨fun s => ?_, fun v s => ⟨_, command_eq v s⟩, fun i s => ⟨_, exec_eq i s⟩⟩
  cases hs : s.script with
  | nil => exact ⟨s, step_nil s hs⟩
  | cons x rest => exact ⟨_, step_transact hs⟩

/-- Settles O36: each case is the first failing check with that code, and the command then raises that cause. -/
theorem cryptoFailureReportsFirstCause : Obligations.CryptoFailureReportsFirstCause := by
  refine ⟨fun cfg i b code h => ?_, exec_eq⟩
  rcases h with ⟨rfl, ⟨rfl, hlen⟩ | ⟨rfl, hlen, hcap⟩ | ⟨rfl, hlen, hfit, hkey⟩⟩ |
    ⟨rfl, ⟨rfl, hlen⟩ | ⟨rfl, hlen, hpad, hkey⟩⟩
  · exact crEncrypt_of_cause (encryptCause_eq_length hlen)
  · exact crEncrypt_of_cause (encryptCause_eq_capacity hlen hcap)
  · exact crEncrypt_of_cause (encryptCause_eq_key hlen hfit ((keyRejected_iff b).mpr hkey))
  · exact crDecrypt_of_cause (decryptCause_eq_length hlen)
  · exact crDecrypt_of_cause (decryptCause_eq_key hlen hpad ((keyRejected_iff b).mpr hkey))

/-- Settles O39: a byte that fails raised a `CryptoError` or is illegal, and neither writes `BUF`, `LEN` or `RES`. -/
theorem failedCommandKeepsData : Obligations.FailedCommandKeepsData := by
  intro v s t ht herr
  rw [command_eq] at ht
  cases ht
  rw [State.withBlock_block] at herr ⊢
  rcases trigger_eq_raise_or_illegal_of_err herr with ⟨cause, e⟩ | e
  all_goals
    rw [e]
    exact ⟨rfl, rfl, rfl, rfl⟩

end Sys2Proof.Machine
end

section
/-! PROOFS of the family 70_reset_and_hazards.md: what each command does in the reset state (R242), and why no command
reads a byte of `BUF` at index `LEN` or above (R254). -/

namespace Sys2Proof.Machine

section Rules

variable {cfg : Cfg} {b c : Block}

/-! ### The commands in the reset state (70_reset_and_hazards.md R242) -/

/-- After reset the operand is empty. -/
theorem operand_reset : Block.reset.operand = [] := rfl

/-- With padding, zero bytes do not fill whole blocks: the length check of a `CR.*` command fails after reset. -/
theorem execute_crypto_reset_of_npad_pos (hwf : cfg.WF) (hpad : 0 < cfg.npad) {i : Instr}
    (hi : i = .crEncrypt ∨ i = .crDecrypt) : Block.reset.execute cfg i = Block.reset.raiseCryptoError .length := by
  have hlen : Block.reset.len.toNat = 0 := rfl
  rcases hi with rfl | rfl
  · refine crEncrypt_of_cause (encryptCause_eq_length ?_)
    rw [hlen, Nat.zero_add, Nat.mod_eq_of_lt hwf.npad_lt]
    exact hpad.ne'
  · exact crDecrypt_of_cause (decryptCause_eq_length (.inr hpad))

/-- Without padding the length and capacity checks pass after reset, and the empty key store fails the key check. -/
theorem execute_crypto_reset_of_npad_zero (hwf : cfg.WF) (hpad : cfg.npad = 0) {i : Instr}
    (hi : i = .crEncrypt ∨ i = .crDecrypt) : Block.reset.execute cfg i = Block.reset.raiseCryptoError .key := by
  have hlen : Block.reset.len.toNat = 0 := rfl
  have hkey : Block.reset.keyRejected cfg = true := by
    rw [Block.keyRejected, keyComplete_reset hwf]
    rfl
  rcases hi with rfl | rfl
  · refine crEncrypt_of_cause (encryptCause_eq_key ?_ ?_ hkey)
    · rw [hlen, hpad, Nat.zero_mod]
    · omega
  · refine crDecrypt_of_cause (decryptCause_eq_key ?_ ?_ hkey)
    · rw [hlen, Nat.zero_mod]
    · omega

/-! ### What a command reads of `BUF` (10_state.md R29, 70_reset_and_hazards.md R254) -/

/-- The blocks differ at most in bytes of `BUF` that are no part of the operand, which ends at `LEN`. -/
structure Block.SameButStale (b c : Block) : Prop where
  rest : c = { b with buf := c.buf }
  operand : c.operand = b.operand

namespace Block.SameButStale

theorem refl (b : Block) : b.SameButStale b := ⟨rfl, rfl⟩

/-- Blocks whose `BUF` reads alike below `LEN` have the same operand. -/
theorem of_read_eq (hrest : c = { b with buf := c.buf })
    (hread : ∀ j, j < b.len.toNat → c.buf.read j = b.buf.read j) : b.SameButStale c := by
  have hlen : c.len = b.len := (congrArg Block.len hrest :)
  refine ⟨hrest, ?_⟩
  simp only [Block.operand, Memory.slice, hlen]
  refine List.map_congr_left fun j hj => ?_
  rw [Nat.zero_add]
  exact hread j (List.mem_range.mp hj)

/-! The operands and the checks of a command do not see the rest of `BUF`. -/

section Operands

variable (h : b.SameButStale c)
include h

theorem len_eq : c.len = b.len := (congrArg Block.len h.rest :)

theorem keyOperand_eq : c.keyOperand cfg = b.keyOperand cfg := (congrArg (Block.keyOperand cfg) h.rest :)

theorem encryptCause_eq : c.encryptCause cfg = b.encryptCause cfg := (congrArg (Block.encryptCause cfg) h.rest :)

theorem decryptCause_eq : c.decryptCause cfg = b.decryptCause cfg := (congrArg (Block.decryptCause cfg) h.rest :)

theorem ciphertext_eq : c.ciphertext cfg = b.ciphertext cfg := by
  simp only [Block.ciphertext, h.keyOperand_eq, h.operand]

theorem paddedPlaintext_eq : c.paddedPlaintext cfg = b.paddedPlaintext cfg := by
  simp only [Block.paddedPlaintext, h.keyOperand_eq, h.operand]

/-! Nor does what a command writes: the outcome, the result, or an output that covers the new operand. -/

theorem report (e : Bool) (code : Byte) : (b.report e code).SameButStale (c.report e code) :=
  ⟨congrArg (Block.report · e code) h.rest, h.operand⟩

theorem setRes {v w : Byte} (hvw : w = v) : { b with res := v }.SameButStale { c with res := w } := by
  subst hvw
  exact ⟨congrArg (fun d : Block => { d with res := w }) h.rest, h.operand⟩

theorem raiseCryptoError (cause : CryptoCause) :
    (b.raiseCryptoError cause).SameButStale (c.raiseCryptoError cause) :=
  ⟨congrArg (Block.raiseCryptoError · cause) h.rest, h.operand⟩

theorem deliver (hb : b.buf.wf = true) (hc : c.buf.wf = true) {out : Bytes} (hout : out.length ≤ 255) {n : Nat}
    (hn : n ≤ out.length) : (b.deliver out n).SameButStale (c.deliver out n) where
  rest := (congrArg (Block.deliver · out n) h.rest :)
  operand := (deliver_operand hc hout hn).trans (deliver_operand hb hout hn).symm

theorem crEncrypt (hwf : cfg.WF) (hb : b.buf.wf = true) (hc : c.buf.wf = true) :
    (b.crEncrypt cfg).SameButStale (c.crEncrypt cfg) := by
  cases hcause : b.encryptCause cfg with
  | some cause =>
    rw [crEncrypt_of_cause hcause, crEncrypt_of_cause (h.encryptCause_eq.trans hcause)]
    exact h.raiseCryptoError cause
  | none =>
    have hready : b.EncryptReady cfg := (encryptCause_none_iff b).mp hcause
    have hlen := length_ciphertext hwf hready
    rw [crEncrypt_of_ready hcause, crEncrypt_of_ready (h.encryptCause_eq.trans hcause), h.ciphertext_eq, h.len_eq]
    exact h.deliver hb hc (hlen.trans_le hready.fits) hlen.ge

theorem crDecrypt (hwf : cfg.WF) (hb : b.buf.wf = true) (hc : c.buf.wf = true) :
    (b.crDecrypt cfg).SameButStale (c.crDecrypt cfg) := by
  cases hcause : b.decryptCause cfg with
  | some cause =>
    rw [crDecrypt_of_cause hcause, crDecrypt_of_cause (h.decryptCause_eq.trans hcause)]
    exact h.raiseCryptoError cause
  | none =>
    have hlen := length_paddedPlaintext hwf ((decryptCause_none_iff b).mp hcause)
    have hbyte := b.len.isLt
    rw [crDecrypt_of_ready hcause, crDecrypt_of_ready (h.decryptCause_eq.trans hcause), h.paddedPlaintext_eq, h.len_eq]
    exact h.deliver hb hc (by omega) (by omega)

theorem execute (hwf : cfg.WF) (hb : b.buf.wf = true) (hc : c.buf.wf = true) (i : Instr) :
    (b.execute cfg i).SameButStale (c.execute cfg i) := by
  cases i with
  | csCompute => exact (h.setRes (by rw [h.operand])).report false errNone
  | csValidate => exact (h.setRes (by rw [h.operand])).report false errNone
  | crEncrypt => exact h.crEncrypt hwf hb hc
  | crDecrypt => exact h.crDecrypt hwf hb hc
  | srst => exact refl Block.reset

end Operands

end Block.SameButStale

end Rules

/-! ### The obligations -/

/-- Settles O45: the operand is the same in both, so the checks, the outputs and the effect of every command are. -/
theorem bytesAboveLenAreNeverRead : Obligations.BytesAboveLenAreNeverRead := by
  intro i s t hs ht hrest hread
  obtain ⟨hrest', hoperand⟩ := (Block.SameButStale.of_read_eq hrest hread).execute Config.cfg_wf hs ht i
  exact ⟨_, _, exec_eq i s, exec_eq i t, hrest', hoperand⟩

/-- Settles O11: the checksum functions on the empty operand, and the first check of a `CR.*` command that fails. -/
theorem commandsInResetState : Obligations.CommandsInResetState := by
  refine ⟨⟨_, exec_eq _ _, ?_⟩, ⟨_, exec_eq _ _, ?_⟩, fun i hi => ⟨_, exec_eq i _, fun hpad => ?_, fun hpad => ?_⟩⟩
  · change csCompute Config.cfg Block.reset.operand = 0xFC
    rw [operand_reset, csCompute_nil, Config.cfg_bias]
  · change boolByte (csValidate Config.cfg Block.reset.operand) = 0x00
    rw [operand_reset, csValidate_nil]
    rfl
  · rw [State.withBlock_block, State.reset, execute_crypto_reset_of_npad_pos Config.cfg_wf hpad hi]
    rfl
  · rw [State.withBlock_block, State.reset, execute_crypto_reset_of_npad_zero Config.cfg_wf hpad hi]
    rfl

end Sys2Proof.Machine
end
